-- ==== Sys2Proof/Word.lean ====
section
/-! DEFINITION. The 32-bit pattern that the block's ports carry (10_state.md R14, 30_encoding.md R37). -/

namespace Sys2Proof

/-- A Float32Bits pattern, "an opaque 32-bit unsigned pattern" (R37). Bit `i` of a port carries bit `i` of it (R25). -/
abbrev Word := BitVec 32

/-- The 64-bit transaction word `{a, b}`, `a` in bits 63:32 and `b` in bits 31:0 (R48). -/
abbrev TxnWord := BitVec 64

end Sys2Proof
end

