-- ==== Sys2Proof/Config.lean ====
section
/-! DEFINITION. What an implementation of the block fixes: the two parameters of 93_implementation_defined.md (I1, I2)
and the values this spec gives them (92_eei_decisions.md D5, D6). No parameter is an input of the block (R12). -/

namespace Sys2Proof.Config

/-- `NAN_SELECT` in {`a`, `b`}: which operand is returned when both are NaN (I1). -/
inductive NanSelect where
  | first | second
  deriving DecidableEq, Repr

/-- The two choices that the source leaves to a build, fixed once for every input pair (I1 "consistent"). -/
structure Params where
  /-- The pattern returned for +Inf + -Inf: any pattern of class NaN (I2). -/
  canonicalNan : Word
  /-- Which NaN is returned when both operands are NaN (I1). -/
  nanSelect : NanSelect
  deriving DecidableEq, Repr

/-- The values this spec decides: `CANONICAL_NAN = 0x7FC00000` (R46, D5) and `NAN_SELECT = a` (R70, D6). -/
def params : Params where
  canonicalNan := 0x7FC00000
  nanSelect := .first

end Sys2Proof.Config
end

