-- ==== Sys2Proof/Syntax.lean ====
section
/-! DEFINITION. The syntax: the operand classes, the instructions (one per row of the opcode table) and the two
formats in which a host presents a word to the block. -/

namespace Sys2Proof

/-- The five classes of an operand (30_encoding.md R41). "Derived, not stored": no field of `State` holds one. -/
inductive OperandClass where
  | zero | subnormal | normal | infinity | nan
  deriving DecidableEq, Repr

/-- The rows of `spec/opcode_table.json`, one constructor each.

`add` is the block's one operation (R2, R53). The five `class…` rows are "Operand class, not an operation" (the table's
own note): a 32-bit operand pattern of that class, with the fields the row leaves free (R37, R41). -/
inductive Instr where
  /-- Row `ADD`, format TXN64: `y <- ADD(a, b)` (R53). -/
  | add (a b : Word)
  /-- Row `CLASS_ZERO`, format OPERAND32: exponent 0, fraction 0. -/
  | classZero (sign : BitVec 1)
  /-- Row `CLASS_SUBNORMAL`, format OPERAND32: exponent 0, fraction not 0. -/
  | classSubnormal (sign : BitVec 1) (fraction : BitVec 23)
  /-- Row `CLASS_NORMAL`, format OPERAND32: exponent 1 to 254, any fraction. -/
  | classNormal (sign : BitVec 1) (exponent : BitVec 8) (fraction : BitVec 23)
  /-- Row `CLASS_INFINITY`, format OPERAND32: exponent 255, fraction 0. -/
  | classInfinity (sign : BitVec 1)
  /-- Row `CLASS_NAN`, format OPERAND32: exponent 255, fraction not 0. -/
  | classNan (sign : BitVec 1) (fraction : BitVec 23)
  deriving DecidableEq, Repr

/-- What a host presents to the block at one time, in one of the two formats of the opcode table. -/
inductive Presentation where
  /-- Format TXN64: both operands together, as the transaction word `{a, b}` (R48). -/
  | transaction (word : TxnWord)
  /-- Format OPERAND32: one operand pattern alone, given to the decoder and the classifier (R39, R41). -/
  | operand (pattern : Word)
  deriving DecidableEq, Repr

end Sys2Proof
end

