-- ==== Sys2Proof/Machine/Operands.lean ====
section
/-! DEFINITION. The decoder, the classifier, and the working significand and effective exponent of an operand
(30_encoding.md R37 to R46); the packing of fields into a pattern; the fixed result patterns. -/

namespace Sys2Proof.Machine

/-- The sign field `x[31]` (R37). -/
def signField (x : Word) : BitVec 1 := x.extractLsb' 31 1

/-- The biased exponent field `x[30:23]` (R37). -/
def exponentField (x : Word) : BitVec 8 := x.extractLsb' 23 8

/-- The fraction field `x[22:0]` (R37). -/
def fractionField (x : Word) : BitVec 23 := x.extractLsb' 0 23

/-- The 31 bits below the sign, `x[30:0]`, which order the magnitudes (R52). -/
def magnitudeField (x : Word) : BitVec 31 := x.extractLsb' 0 31

/-- A decoded operand (R21, R39). -/
structure Decoded where
  sign : BitVec 1
  exponent : BitVec 8
  fraction : BitVec 23
  deriving DecidableEq, Repr

/-- The decoder stage: "Pure bit extraction; total function, no failure mode" (R39). -/
def decodeFields (x : Word) : Decoded where
  sign := signField x
  exponent := exponentField x
  fraction := fractionField x

/-- The pattern `{sign, exponent, fraction}` (R37, R39). -/
def packFields (sign : BitVec 1) (exponent : BitVec 8) (fraction : BitVec 23) : Word :=
  sign ++ exponent ++ fraction

/-- The classifier stage (R41). The sign plays no part. -/
def classOfFields (exponent : BitVec 8) (fraction : BitVec 23) : OperandClass :=
  if exponent = 0 then
    if fraction = 0 then .zero else .subnormal
  else if exponent = 255 then
    if fraction = 0 then .infinity else .nan
  else .normal

/-- The class of a pattern (R41). -/
def classify (x : Word) : OperandClass := classOfFields (exponentField x) (fractionField x)

/-- Zero, Subnormal or Normal: the classes whose patterns have a real value (R40, R56). -/
def isFinite (x : Word) : Bool := exponentField x ≠ 255

/-- The 24-bit working significand `m`: the hidden bit, then the fraction (R42). -/
def workingSignificand (d : Decoded) : BitVec 24 :=
  (if d.exponent ≠ 0 then 1#1 else 0#1) ++ d.fraction

/-- The effective exponent: the biased exponent, or 1 where that is 0 (R43, 90_conflicts.md C2). -/
def effectiveExponent (d : Decoded) : BitVec 8 :=
  if d.exponent ≠ 0 then d.exponent else 1

/-- The infinity of sign `s`, `{s, 8'hFF, 23'h000000}` (R44). -/
def infinityOf (sign : BitVec 1) : Word := packFields sign 255 0

/-- The zero of sign `s`: +0 or -0 (R44). -/
def zeroOf (sign : BitVec 1) : Word := packFields sign 0 0

end Sys2Proof.Machine
end

