-- ==== Sys2Proof/Machine/Align.lean ====
section
/-! DEFINITION. The exponent aligner and the magnitude engine (42_align_combine.md R79 to R93). -/

namespace Sys2Proof.Machine

/-- The 27-bit extended significand `{m, 3'b000}`: guard, round and sticky positions below the significand (R81). -/
def extendSignificand (m : BitVec 24) : BitVec 27 := m ++ 0#3

/-- `OR(v)`: 1 if any bit of `v` is 1 (00_scope.md section 5). -/
def orReduce {n : Nat} (v : BitVec n) : BitVec 1 := if v = 0 then 0 else 1

/-- `OR(v[n-1:0])`, the OR of the `n` lowest bits of `v`. -/
def orLowBits (v : BitVec 27) (n : Nat) : BitVec 1 := if v.toNat % 2 ^ n = 0 then 0 else 1

/-- The jamming shift: "the lowest retained bit becomes 1 if any shifted-out bit was 1" (R86). -/
def jamShiftRight (v : BitVec 27) (d : Nat) : BitVec 27 :=
  if d = 0 then v
  else if d < 27 then (v >>> d) ||| (orLowBits v d).setWidth 27
  else (orReduce v).setWidth 27

/-- The sticky bit of alignment: the OR of every bit that `jamShiftRight v d` shifts out (R87). -/
def lostBits (v : BitVec 27) (d : Nat) : BitVec 1 :=
  if d = 0 then 0 else orLowBits v (min d 27)

/-- AlignedOperands (R21, R84). -/
structure AlignedOperands where
  commonExponent : BitVec 8
  sigA : BitVec 27
  sigB : BitVec 27
  /-- Already ORed into bit 0 of the shifted operand; no later stage reads it (R87). -/
  stickyBit : BitVec 1
  deriving DecidableEq, Repr

/-- The aligner: the operand with the smaller effective exponent is shifted right by the difference, with the jamming
shift; the other is not shifted (R80 to R85). `sigA` always comes from operand `a` and `sigB` from operand `b`. -/
def alignOperands (da db : Decoded) : AlignedOperands :=
  let xa := effectiveExponent da
  let xb := effectiveExponent db
  let a0 := extendSignificand (workingSignificand da)
  let b0 := extendSignificand (workingSignificand db)
  if xb.toNat ≤ xa.toNat then
    let d := xa.toNat - xb.toNat
    { commonExponent := xa, sigA := a0, sigB := jamShiftRight b0 d, stickyBit := lostBits b0 d }
  else
    let d := xb.toNat - xa.toNat
    { commonExponent := xb, sigA := jamShiftRight a0 d, sigB := b0, stickyBit := lostBits a0 d }

/-- Which way the magnitude engine combined its operands (R21, R89, R90). -/
inductive CombineOp where
  | sameSign | diffSign
  deriving DecidableEq, Repr

/-- The magnitude engine's output (R93): `carry` is `sum[27]`. -/
structure Combined where
  sign : BitVec 1
  exponent : BitVec 8
  sum : BitVec 28
  carry : BitVec 1
  op : CombineOp
  deriving DecidableEq, Repr

/-- Builds the Combined value of R93: the exponent as the aligner gave it, and `carry = S[27]`. -/
def combinedOf (sign : BitVec 1) (exponent : BitVec 8) (sum : BitVec 28) (op : CombineOp) : Combined where
  sign := sign
  exponent := exponent
  sum := sum
  carry := sum.extractLsb' 27 1
  op := op

/-- The magnitude engine. `none` is the exact cancellation of R91, after which no later stage runs. -/
def combineMagnitudes (al : AlignedOperands) (sa sb : BitVec 1) : Option Combined :=
  let wideA := al.sigA.setWidth 28
  let wideB := al.sigB.setWidth 28
  if sa = sb then some (combinedOf sa al.commonExponent (wideA + wideB) .sameSign)
  else if al.sigB.toNat < al.sigA.toNat then
    some (combinedOf sa al.commonExponent (wideA - wideB) .diffSign)
  else if al.sigA.toNat < al.sigB.toNat then
    some (combinedOf sb al.commonExponent (wideB - wideA) .diffSign)
  else none

end Sys2Proof.Machine
end

