-- ==== Sys2Proof/Machine/Normalize.lean ====
section
/-! DEFINITION. The normalizer, the rounder and the encoder (43_normalize_round_encode.md R94 to R106). -/

namespace Sys2Proof.Machine

/-- What a stage that checks the exponent for overflow gives on: its value, or the infinity of the result sign (R103). -/
inductive Ranged (α : Type) where
  | inRange (value : α)
  | overflow (sign : BitVec 1)
  deriving DecidableEq, Repr

/-- The normalizer's output (R21, R94, R95). -/
structure Normalized where
  sign : BitVec 1
  exponent : BitVec 8
  sum : BitVec 27
  deriving DecidableEq, Repr

/-- The rounder's output (R21, R101, R102). -/
structure Rounded where
  sign : BitVec 1
  exponent : BitVec 8
  significand : BitVec 24
  deriving DecidableEq, Repr

/-- The number of leading zeros of the `k` lowest bits of `v`, counted from bit `k - 1` down. -/
def leadingZerosFrom (v : BitVec 27) : Nat → Nat
  | 0 => 0
  | k + 1 => if v.getLsbD k then 0 else leadingZerosFrom v k + 1

/-- `lzc27`: the leading zeros of a 27-bit value, 27 for the value 0 (00_scope.md section 5). In the block this is a
priority encoder, not a loop (R95, R128). -/
def lzc27 (v : BitVec 27) : Nat := leadingZerosFrom v 27

/-- An exponent computed as an integer, kept where it is below 255, or the overflow of R103. -/
def checkExponent {α : Type} (sign : BitVec 1) (exponent : Nat) (value : BitVec 8 → α) : Ranged α :=
  if exponent = 255 then .overflow sign else .inRange (value (BitVec.ofNat 8 exponent))

/-- The count of the left shift: the leading zeros, but at most `E - 1` (R95, R96). -/
def leftShiftCount (c : Combined) : Nat :=
  min (lzc27 (c.sum.setWidth 27)) (c.exponent.toNat - 1)

/-- The normalizer: a right shift by one with the dropped bit jammed in on a carry out (R94), else a left shift capped
at the subnormal boundary (R95, R96). -/
def normalizeSum (c : Combined) : Ranged Normalized :=
  if c.carry = 1 then
    checkExponent c.sign (c.exponent.toNat + 1) fun e =>
      { sign := c.sign, exponent := e,
        sum := c.sum.extractLsb' 2 26 ++ (c.sum.extractLsb' 1 1 ||| c.sum.extractLsb' 0 1) }
  else
    let n := leftShiftCount c
    .inRange { sign := c.sign, exponent := BitVec.ofNat 8 (c.exponent.toNat - n),
               sum := c.sum.setWidth 27 <<< n }

/-- `L = N[3]`, the least significant retained bit (R99). -/
def lastRetainedBit (n : BitVec 27) : BitVec 1 := n.extractLsb' 3 1

/-- `G = N[2]`, the guard bit (R99). -/
def guardBit (n : BitVec 27) : BitVec 1 := n.extractLsb' 2 1

/-- `R = N[1]`, the round bit (R99). -/
def roundBit (n : BitVec 27) : BitVec 1 := n.extractLsb' 1 1

/-- `T = N[0]`, the sticky bit (R99). -/
def stickyBit (n : BitVec 27) : BitVec 1 := n.extractLsb' 0 1

/-- The round-to-nearest-even increment `inc = G & (R | T | L)` (R100). -/
def roundIncrement (n : BitVec 27) : BitVec 1 :=
  guardBit n &&& (roundBit n ||| stickyBit n ||| lastRetainedBit n)

/-- `M1 = N[26:3] + inc`, 25 bits (R101). -/
def incrementedSignificand (n : BitVec 27) : BitVec 25 :=
  (n.extractLsb' 3 24).setWidth 25 + (roundIncrement n).setWidth 25

/-- The rounder: a rounding carry moves the significand down by one bit and the exponent up by one, with the overflow
check of R103 (R101, R102). -/
def roundSum (n : Normalized) : Ranged Rounded :=
  let m1 := incrementedSignificand n.sum
  if m1.extractLsb' 24 1 = 1#1 then
    checkExponent n.sign (n.exponent.toNat + 1) fun e =>
      { sign := n.sign, exponent := e, significand := m1.extractLsb' 1 24 }
  else
    .inRange { sign := n.sign, exponent := n.exponent, significand := m1.extractLsb' 0 24 }

/-- The encoder: drops the hidden bit `M[23]`; the exponent field is 0 where that bit is 0 (R104). -/
def encodeResult (r : Rounded) : Word :=
  packFields r.sign (if r.significand.extractLsb' 23 1 = 1#1 then r.exponent else 0) (r.significand.extractLsb' 0 23)

/-- Normalizer, rounder and encoder in the order of R8, each overflow ending in the infinity of its sign (R103). -/
def finishSum (c : Combined) : Word :=
  match normalizeSum c with
  | .overflow s => infinityOf s
  | .inRange n =>
    match roundSum n with
    | .overflow s => infinityOf s
    | .inRange r => encodeResult r

end Sys2Proof.Machine
end

