-- ==== Sys2Proof/Machine/Add.lean ====
section
/-! DEFINITION. The special-case dispatch (41_special_cases.md R67 to R78), the general path and the operation ADD
(40_add.md R53), for every choice of the two parameters of Config; `addFloat32` is the operation with the values this
spec fixes. -/

namespace Sys2Proof.Machine

open Sys2Proof.Config

/-- The nine lines of the dispatch, in the order in which their conditions are tested (R67). -/
inductive DispatchLine where
  | nanA | nanB | bothInfinite | infiniteA | infiniteB | bothZero | zeroA | zeroB | generalPath
  deriving DecidableEq, Repr

/-- The one line that decides `y`, from the classes of the two operands: NaN, then Infinity, then Zero (R67, R114). -/
def dispatchLine (ca cb : OperandClass) : DispatchLine :=
  if ca = .nan then .nanA
  else if cb = .nan then .nanB
  else if ca = .infinity ∧ cb = .infinity then .bothInfinite
  else if ca = .infinity then .infiniteA
  else if cb = .infinity then .infiniteB
  else if ca = .zero ∧ cb = .zero then .bothZero
  else if ca = .zero then .zeroA
  else if cb = .zero then .zeroB
  else .generalPath

/-- Line 1: `a` is NaN. Both are NaN only where `NAN_SELECT` chooses (R69, R70). The pattern is returned unchanged, bit
22 as it is (R71). -/
def nanResult (p : Params) (a b : Word) : Word :=
  if classify b = .nan ∧ p.nanSelect = .second then b else a

/-- Line 3: infinities of the same sign give that infinity, of opposite signs the canonical NaN (R72, R73). -/
def infinitiesResult (p : Params) (a b : Word) : Word :=
  if signField a = signField b then a else p.canonicalNan

/-- Line 6: `{sa & sb, 31'b0}` (R75). -/
def zerosResult (a b : Word) : Word := zeroOf (signField a &&& signField b)

/-- Line 9: the aligner, the magnitude engine, the normalizer, the rounder and the encoder, with +0 on an exact
cancellation (R77, R91). -/
def generalResult (a b : Word) : Word :=
  match combineMagnitudes (alignOperands (decodeFields a) (decodeFields b)) (signField a) (signField b) with
  | none => zeroOf 0
  | some c => finishSum c

/-- ADD for a build with the parameters `p` (R53, 93_implementation_defined.md I1, I2). -/
def addFloat32With (p : Params) (a b : Word) : Word :=
  match dispatchLine (classify a) (classify b) with
  | .nanA => nanResult p a b
  | .nanB => b
  | .bothInfinite => infinitiesResult p a b
  | .infiniteA => a
  | .infiniteB => b
  | .bothZero => zerosResult a b
  | .zeroA => b
  | .zeroB => a
  | .generalPath => generalResult a b

/-- ADD as this spec fixes it (R53): the function the block computes on its ports. -/
def addFloat32 (a b : Word) : Word := addFloat32With params a b

/-- `NEG x` of the spec's listings: flips only the sign bit. An operation of the host, not of the block (R51). -/
def hostNegate (x : Word) : Word := x ^^^ 0x80000000

end Sys2Proof.Machine
end

