-- ==== Sys2Proof/Machine/State.lean ====
section
/-! DEFINITION. The state of the model. The block itself "has no architectural state" (R13): no register, flag, program
counter, control register, memory or mode exists (R16 to R20, R26), and no value inside an evaluation outlasts it (R21). So
`State` holds only what the host does: what is on the two input ports and what it presents next. The output port is no
field: it is the function `State.y` of the inputs (Ops.lean, R23). -/

namespace Sys2Proof.Machine

/-- What the host has on the input ports at one observation point (R14, R23) and what it presents next. Nothing here is the
block's: its part of the state is empty (R13, R123). -/
structure State where
  /-- The words the host presents next, the first at the head (R32: in an order of the host's own). The model's field. -/
  pending : List Presentation
  /-- Input port `a[31:0]` (R14). -/
  a : Word
  /-- Input port `b[31:0]` (R14). -/
  b : Word
  deriving DecidableEq, Repr

/-- The block raises no exception and takes no trap (R107): no fault exists, and the type is empty. -/
inductive Fault where
  deriving DecidableEq, Repr

/-- No presentation is refused (R10, R107). -/
inductive Refusal where
  /-- Raised only by an arm of `exec` whose instruction has no meaning yet; no arm answers with it. Safe: the run stops. -/
  | notModelled (mnemonic : String)
  deriving DecidableEq, Repr

/-- After reset nothing is presented. The block has no reset input and no reset values, and its state is the empty state
(R121, R123); the values on the two input ports are the host's, here +0 (DESIGN CHOICE, notes/assumptions/1.md). -/
def State.reset : State where
  pending := []
  a := 0x00000000
  b := 0x00000000

end Sys2Proof.Machine
end

