-- ==== Sys2Proof/Machine/Ops.lean ====
section
/-! DEFINITION. The output port, and the named operations over the state: driving the input ports and passing a
presentation. No operation takes or returns from an exception: the block has none (R107, R115, R116). -/

namespace Sys2Proof.Machine

/-- Output port `y[31:0]` (R14): `ADD(a, b)` for the values on `a` and `b` at the observation (R23, latency 0 by R130). It
is computed, never stored, so no state has an older or an unsettled output. -/
def State.y (s : State) : Word := addFloat32 s.a s.b

/-- The host drives both input ports together (R29, R127). -/
def State.drive (s : State) (a b : Word) : State := { s with a := a, b := b }

/-- The presentation at the head has been taken. -/
def State.advance (s : State) : State := { s with pending := s.pending.tail }

/-- One transaction: the operands go to the ports together, where `y` is their sum (R14, R23, R53). -/
def State.evaluate (s : State) (a b : Word) : State := (s.drive a b).advance

/-- One operand pattern alone, which is no operation. The decoder and the classifier give its fields and its class (R39,
R41), which are discarded when the evaluation ends (R21), so nothing of it is left in the state; no part of a pair reaches
the ports (R29), and `y` stays the sum of the inputs that are on them (R23). -/
def State.presentOperand (s : State) (_x : Word) : State := s.advance

end Sys2Proof.Machine
end

