-- ==== Sys2Proof/Machine/Arithmetic.lean ====
section
/-! DEFINITION. The meaning of the operation ADD (40_add.md R53). -/

namespace Sys2Proof.Machine

/-- `ADD a, b`: `y <- ADD(a, b)`. "Flags written: none", "Exceptions raised: none" (R53). -/
def execAdd (a b : Word) (s : State) : Host.Outcome State Fault Refusal :=
  .next (s.evaluate a b)

end Sys2Proof.Machine
end

