-- ==== Sys2Proof/Machine/Classes.lean ====
section
/-! DEFINITION. The meanings of the operand-class rows of the opcode table, each "Operand class, not an operation" (the
table's notes; R41). A class decides which line of the dispatch of ADD applies (`dispatchLine`, R67). Presented alone, an
operand is decoded and classified, its class is discarded (R21), and no port changes (notes/assumptions/2.md). -/

namespace Sys2Proof.Machine

/-- `CLASS_ZERO` (R41): inside ADD it decides dispatch line 6, 7 or 8 (R75, R76). -/
def execClassZero (sign : BitVec 1) (s : State) : Host.Outcome State Fault Refusal :=
  .next (s.presentOperand (packFields sign 0 0))

/-- `CLASS_SUBNORMAL` (R41): inside ADD it takes the general path with effective exponent 1 (R43, R77). -/
def execClassSubnormal (sign : BitVec 1) (fraction : BitVec 23) (s : State) : Host.Outcome State Fault Refusal :=
  .next (s.presentOperand (packFields sign 0 fraction))

/-- `CLASS_NORMAL` (R41): inside ADD it takes the general path (R77). -/
def execClassNormal (sign : BitVec 1) (exponent : BitVec 8) (fraction : BitVec 23) (s : State) :
    Host.Outcome State Fault Refusal :=
  .next (s.presentOperand (packFields sign exponent fraction))

/-- `CLASS_INFINITY` (R41): inside ADD it decides dispatch line 3, 4 or 5 (R72 to R74). -/
def execClassInfinity (sign : BitVec 1) (s : State) : Host.Outcome State Fault Refusal :=
  .next (s.presentOperand (packFields sign 255 0))

/-- `CLASS_NAN` (R41): inside ADD it decides dispatch line 1 or 2 (R69 to R71). -/
def execClassNan (sign : BitVec 1) (fraction : BitVec 23) (s : State) : Host.Outcome State Fault Refusal :=
  .next (s.presentOperand (packFields sign 255 fraction))

end Sys2Proof.Machine
end

