-- ==== Sys2Proof/Machine/Dispatch.lean ====
section
/-! DEFINITION. The meaning of every instruction: one arm per constructor of `Instr`. -/

namespace Sys2Proof.Machine

def exec (i : Instr) (s : State) : Host.Outcome State Fault Refusal :=
  match i with
  | .add a b => Sys2Proof.Machine.execAdd a b s
  | .classZero sign => Sys2Proof.Machine.execClassZero sign s
  | .classSubnormal sign fraction => Sys2Proof.Machine.execClassSubnormal sign fraction s
  | .classNormal sign exponent fraction => Sys2Proof.Machine.execClassNormal sign exponent fraction s
  | .classInfinity sign => Sys2Proof.Machine.execClassInfinity sign s
  | .classNan sign fraction => Sys2Proof.Machine.execClassNan sign fraction s

end Sys2Proof.Machine
end

