-- ==== Sys2Proof/WellFormed.lean ====
section
/-! DEFINITION. Which terms of `Instr` stand for a word of their row of the opcode table: the bounds that R41 puts on the
fields of each class. Every ADD is well-formed: "No operand pattern and no transaction word is reserved" (R49). -/

namespace Sys2Proof

/-- The field checks of R41 for the rows whose free fields do not take every value. -/
def Instr.wellFormed : Instr → Bool
  | .add _ _ => true
  | .classZero _ => true
  | .classSubnormal _ fraction => fraction ≠ 0
  | .classNormal _ exponent _ => exponent ≠ 0 && exponent ≠ 255
  | .classInfinity _ => true
  | .classNan _ fraction => fraction ≠ 0

end Sys2Proof
end

