-- ==== Sys2Proof/Decode.lean ====
section
/-! DEFINITION. Decoding a presented word into an instruction, and the encoder. A transaction word has no opcode bits, so
every one of the 2^64 words is ADD (R47, R49); an operand pattern is the row of its class (R41). Decoding a presentation
is total and refuses nothing. A raw word of a length that no row has is rejected by name. -/

namespace Sys2Proof

open Sys2Proof.Machine

/-- Operand `a` of a transaction word, bits 63:32 (R48). -/
def firstOperand (w : TxnWord) : Word := w.extractLsb' 32 32

/-- Operand `b` of a transaction word, bits 31:0 (R48). -/
def secondOperand (w : TxnWord) : Word := w.extractLsb' 0 32

/-- The transaction word `{a, b}` (R48). -/
def transactionWord (a b : Word) : TxnWord := a ++ b

/-- The row of an operand pattern: its class, with the fields that the row leaves free (R39, R41). -/
def decodeOperand (x : Word) : Instr :=
  match classify x with
  | .zero => .classZero (signField x)
  | .subnormal => .classSubnormal (signField x) (fractionField x)
  | .normal => .classNormal (signField x) (exponentField x) (fractionField x)
  | .infinity => .classInfinity (signField x)
  | .nan => .classNan (signField x) (fractionField x)

/-- The decoder: a transaction is ADD of its two operands (R47), an operand alone is the row of its class (R41). -/
def decode : Presentation → Instr
  | .transaction w => .add (firstOperand w) (secondOperand w)
  | .operand x => decodeOperand x

/-- The pattern that an operand row stands for, from the row's `encoding` in the opcode table. -/
def operandPattern (sign : BitVec 1) (exponent : BitVec 8) (fraction : BitVec 23) : Presentation :=
  .operand (packFields sign exponent fraction)

/-- The encoder: the word of an instruction, in its row's format. -/
def encode : Instr → Presentation
  | .add a b => .transaction (transactionWord a b)
  | .classZero sign => operandPattern sign 0 0
  | .classSubnormal sign fraction => operandPattern sign 0 fraction
  | .classNormal sign exponent fraction => operandPattern sign exponent fraction
  | .classInfinity sign => operandPattern sign 255 0
  | .classNan sign fraction => operandPattern sign 255 fraction

/-- Why a raw word is no presentation. The block itself is never given one: its ports are whole (R29), and the only
formats are the two of the opcode table (R50). -/
inductive DecodeError where
  /-- No row of the opcode table has this many bits. -/
  | noSuchFormat (bits : Nat)
  /-- The word has a bit set at or above its length. -/
  | wordTooWide (bits : Nat)
  deriving DecidableEq, Repr

/-- The presentation that a raw word of `nbits` bits stands for; bit 0 is the least significant bit (R25, R48). -/
def presentWord (nbits w : Nat) : Except DecodeError Presentation :=
  if 2 ^ nbits ≤ w then .error (.wordTooWide nbits)
  else if nbits = 64 then .ok (.transaction (BitVec.ofNat 64 w))
  else if nbits = 32 then .ok (.operand (BitVec.ofNat 32 w))
  else .error (.noSuchFormat nbits)

/-- The decoder on raw words: total, rejecting by name. -/
def decodeWord (nbits w : Nat) : Except DecodeError Instr :=
  match presentWord nbits w with
  | .ok p => .ok (decode p)
  | .error e => .error e

/-- The instruction the decoder reads from an `nbits`-bit table word `w`. -/
def decodeTableWord (nbits w : Nat) : Option Instr :=
  match decodeWord nbits w with
  | .ok i => some i
  | .error _ => none

end Sys2Proof
end

