-- ==== Sys2Proof/Machine/Fetch.lean ====
section
/-! DEFINITION. What a step evaluates. The block fetches no instruction (R35): its "instruction" is what stands on its
input ports (R20, R47), or what the host presents next. -/

namespace Sys2Proof.Machine

/-- The presentation a step takes: the host's next one, or, where the host presents nothing new, the pair that is on the
input ports (R23: `y = ADD(a, b)` for the values then on them). -/
def State.presented (s : State) : Presentation :=
  match s.pending with
  | [] => .transaction (transactionWord s.a s.b)
  | p :: _ => p

/-- `p` presented ahead of everything else. -/
def State.present (s : State) (p : Presentation) : State := { s with pending := p :: s.pending }

end Sys2Proof.Machine
end

