-- ==== Sys2Proof/Machine/Step.lean ====
section
/-! DEFINITION. One step of the model: "one step of the model is one evaluation" (R13, D19). -/

namespace Sys2Proof.Machine

/-- The presented word is decoded and its instruction executed; the meaning itself passes the presentation. -/
def step (s : State) : Host.Outcome State Fault Refusal :=
  exec (decode s.presented) s

/-- `s` with the `nbits`-bit table word `w` presented next. A word of a length that no row of the table has is no
presentation, and leaves `s` as it is. -/
def State.withFetchWord (s : State) (nbits w : Nat) : State :=
  match presentWord nbits w with
  | .ok p => s.present p
  | .error _ => s

end Sys2Proof.Machine
end

