-- ==== Sys2Proof/Machine/Listing.lean ====
section
/-! DEFINITION. The listing of R53 as it stands in 40_add.md, over mathematical integers "with no wrap-around"
(00_scope.md section 5): the one-place form of ADD, against which the staged datapath of Add.lean is stated to agree. -/

namespace Sys2Proof.Machine

/-- `jam_shift_right(v, d)` on a number below `2^27` (R86). -/
def jamNat (v d : Nat) : Nat :=
  if d = 0 then v
  else if d < 27 then (v / 2 ^ d) ||| (if v % 2 ^ d = 0 then 0 else 1)
  else if v = 0 then 0 else 1

/-- `lzc27(v)` on a number below `2^27` (00_scope.md section 5). -/
def lzcNat (v : Nat) : Nat := if v = 0 then 27 else 26 - v.log2

/-- `{s, e[7:0], f}` as a number. -/
def packNat (s e f : Nat) : Nat := s * 2 ^ 31 + e * 2 ^ 23 + f

/-- The listing's "Encoder" lines. -/
def encodeLines (s m e2 : Nat) : Nat := packNat s (if m / 2 ^ 23 = 1 then e2 else 0) (m % 2 ^ 23)

/-- The listing's "Rounder" lines, and what follows. -/
def roundLines (s n e1 : Nat) : Nat :=
  let inc := (n / 4 % 2) &&& ((n / 2 % 2) ||| (n % 2) ||| (n / 8 % 2))
  let m1 := n / 8 + inc
  if m1 / 2 ^ 24 = 1 then
    if e1 + 1 = 255 then packNat s 255 0 else encodeLines s (m1 / 2) (e1 + 1)
  else encodeLines s m1 e1

/-- The listing's "Normalizer" lines, and what follows. -/
def normalizeLines (s sum e : Nat) : Nat :=
  if sum / 2 ^ 27 = 1 then
    if e + 1 = 255 then packNat s 255 0
    else roundLines s ((sum / 4) * 2 + ((sum / 2 % 2) ||| (sum % 2))) (e + 1)
  else
    let n := min (lzcNat sum) (e - 1)
    roundLines s (sum * 2 ^ n) (e - n)

/-- The listing's "Magnitude engine" lines, and what follows. -/
def combineLines (sa sb a b e : Nat) : Nat :=
  if sa = sb then normalizeLines sa (a + b) e
  else if b < a then normalizeLines sa (a - b) e
  else if a < b then normalizeLines sb (b - a) e
  else 0x00000000

/-- The listing's "General path" and "Aligner" lines, and what follows. -/
def alignLines (sa ea fa sb eb fb : Nat) : Nat :=
  let ma := (if ea = 0 then 0 else 2 ^ 23) + fa
  let mb := (if eb = 0 then 0 else 2 ^ 23) + fb
  let xa := if ea = 0 then 1 else ea
  let xb := if eb = 0 then 1 else eb
  if xb ≤ xa then combineLines sa sb (ma * 8) (jamNat (mb * 8) (xa - xb)) xa
  else combineLines sa sb (jamNat (ma * 8) (xb - xa)) (mb * 8) xb

/-- `ADD(a, b)` on two numbers below `2^32`, the whole listing of R53. -/
def addListing (a b : Nat) : Nat :=
  let sa := a / 2 ^ 31
  let ea := a / 2 ^ 23 % 2 ^ 8
  let fa := a % 2 ^ 23
  let sb := b / 2 ^ 31
  let eb := b / 2 ^ 23 % 2 ^ 8
  let fb := b % 2 ^ 23
  if ea = 255 ∧ fa ≠ 0 then a
  else if eb = 255 ∧ fb ≠ 0 then b
  else if ea = 255 ∧ eb = 255 then (if sa = sb then a else 0x7FC00000)
  else if ea = 255 then a
  else if eb = 255 then b
  else if (ea = 0 ∧ fa = 0) ∧ (eb = 0 ∧ fb = 0) then (sa &&& sb) * 2 ^ 31
  else if ea = 0 ∧ fa = 0 then b
  else if eb = 0 ∧ fb = 0 then a
  else alignLines sa ea fa sb eb fb

end Sys2Proof.Machine
end

