-- ==== Sys2Proof/Machine/Value.lean ====
section
/-! DEFINITION. The real value of a pattern and the value-level meaning of a rounded sum (30_encoding.md R40, R52;
40_add.md R56). No stage of the datapath uses these: they say, independently of it, what the result has to be. The value
formula and the overflow threshold are the spec's passages K1 and K3 (93_implementation_defined.md). -/

namespace Sys2Proof.Machine

/-- `value(x) = (-1)^sign * m * 2^(xe - 150)` for a Zero, a Subnormal or a Normal (R40). -/
def value (x : Word) : ℚ :=
  (-1) ^ (signField x).toNat * (workingSignificand (decodeFields x)).toNat *
    2 ^ ((effectiveExponent (decodeFields x)).toNat - 150 : ℤ)

/-- The magnitude of a pattern that is not NaN, "taking an Infinity as larger than every finite pattern" (R52). -/
def extendedMagnitude (x : Word) : WithTop ℚ :=
  if classify x = .infinity then ⊤ else ((|value x| : ℚ) : WithTop ℚ)

/-- The sign of a real number as a sign field. -/
def signOfValue (v : ℚ) : BitVec 1 := if v < 0 then 1 else 0

/-- `2^128 - 2^103`, halfway between the largest finite magnitude and `2^128` (R56). -/
def overflowThreshold : ℚ := 2 ^ 128 - 2 ^ 103

/-- The distance between the magnitude of the pattern `z` and the magnitude of `v`. -/
def magnitudeDistance (z : Word) (v : ℚ) : ℚ := |(|value z| - |v|)|

/-- `y` is the finite pattern with the sign of `v` whose magnitude is nearest to `|v|`, and where another such pattern is
as near, bit 0 of `y` is 0 (R56). -/
def IsNearestEven (v : ℚ) (y : Word) : Prop :=
  isFinite y = true ∧ signField y = signOfValue v ∧
    ∀ z, isFinite z = true → signField z = signOfValue v →
      magnitudeDistance y v ≤ magnitudeDistance z v ∧
        (z ≠ y → magnitudeDistance z v = magnitudeDistance y v → y.getLsbD 0 = false)

/-- `y = RNE(v)` for a `v` that is not 0 (R56). -/
def IsRne (v : ℚ) (y : Word) : Prop :=
  if overflowThreshold ≤ |v| then y = infinityOf (signOfValue v) else IsNearestEven v y

/-- `|value(x)|` of a finite pattern in units of `2^-149`, the weight of the last bit of a Subnormal: a whole number. -/
def scaledMagnitude (x : Word) : Nat :=
  (workingSignificand (decodeFields x)).toNat * 2 ^ ((effectiveExponent (decodeFields x)).toNat - 1)

/-- `value(x)` of a finite pattern in units of `2^-149`. -/
def scaledValue (x : Word) : Int :=
  if signField x = 1 then -(scaledMagnitude x : Int) else scaledMagnitude x

/-- `n / 2^k` rounded to the nearest integer, ties to even. -/
def roundedQuotient (n k : Nat) : Nat :=
  let q := n / 2 ^ k
  let r := n % 2 ^ k
  if 2 * r < 2 ^ k then q else if 2 ^ k < 2 * r then q + 1 else q + q % 2

/-- The 31 magnitude bits of the pattern nearest to `n` units of `2^-149`, with an unbounded exponent: 24 significant bits
are kept, and the significand carries into the exponent field by itself. -/
def roundedPattern (n : Nat) : Nat :=
  let k := n.log2 - 23
  k * 2 ^ 23 + roundedQuotient n k

/-- `RNE` computed on exact integers, with no alignment and no sticky bit: the sum as a number in units of `2^-149`,
rounded once, and an infinity where the rounded exponent reaches 255 (R56, R103). -/
def exactRne (v : Int) : Word :=
  packFields (if v < 0 then 1 else 0) 0 0 |||
    (if roundedPattern v.natAbs < 0x7F800000 then BitVec.ofNat 32 (roundedPattern v.natAbs) else 0x7F800000)

end Sys2Proof.Machine
end

