-- ==== Sys2Proof/Safety.lean ====
section
/-! DEFINITION. What claims about runs say of a state: that the output is the correctly rounded sum of what is on the
input ports (R56, R57, R61, R62), in terms that no stage of the datapath appears in; and which row and which stage an
operand reaches. -/

namespace Sys2Proof.Machine

/-- What `y` has to be for finite operands: the exact sum rounded to nearest, ties to even (R56), or, where the exact sum
is 0, -0 for two operands that are both -0 and +0 otherwise (R57). -/
def IsFiniteSum (a b y : Word) : Prop :=
  if value a + value b = 0 then y = (if a = 0x80000000 ∧ b = 0x80000000 then 0x80000000 else 0x00000000)
  else IsRne (value a + value b) y

/-- What `y` has to be where an operand is NaN or Infinity (R61, R62 with R69 to R74). -/
def IsSpecialSum (a b y : Word) : Prop :=
  if classify a = .nan then y = a
  else if classify b = .nan then y = b
  else if isFinite a = true then y = b
  else if isFinite b = true then y = a
  else y = (if a = b then a else 0x7FC00000)

/-- `y` is the sum that the spec's value-level rules give `a` and `b`. -/
def IsCorrectSum (a b y : Word) : Prop :=
  if isFinite a = true ∧ isFinite b = true then IsFiniteSum a b y else IsSpecialSum a b y

/-- The output port carries the correct sum of the input ports. -/
def State.Correct (s : State) : Prop := IsCorrectSum s.a s.b s.y

/-- `x` lies between `lo` and `hi`, or does so with the sign bit set: the two pattern columns of the table of R41. -/
def inSignedRange (x : Word) (lo hi : Nat) : Bool :=
  (lo ≤ x.toNat && x.toNat ≤ hi) || (0x80000000 + lo ≤ x.toNat && x.toNat ≤ 0x80000000 + hi)

/-- The operand class that a row of the opcode table stands for; ADD stands for none (R41). -/
def rowClass : Instr → Option OperandClass
  | .add _ _ => none
  | .classZero _ => some .zero
  | .classSubnormal _ _ => some .subnormal
  | .classNormal _ _ _ => some .normal
  | .classInfinity _ => some .infinity
  | .classNan _ _ => some .nan

/-- A Normal or a Subnormal: finite and not zero ("Fin" of R54; the only operands of the general path, R77, R78). -/
def isFiniteNonzero (x : Word) : Bool := classify x = .normal || classify x = .subnormal

/-- The magnitude engine passes `c` on to the normalizer for the operands `a` and `b` (R77, R93). -/
def ReachesNormalizer (a b : Word) (c : Combined) : Prop :=
  isFiniteNonzero a = true ∧ isFiniteNonzero b = true ∧
    combineMagnitudes (alignOperands (decodeFields a) (decodeFields b)) (signField a) (signField b) = some c

/-- The normalizer passes `n` on to the rounder for the operands `a` and `b` (R95, R99). -/
def ReachesRounder (a b : Word) (n : Normalized) : Prop :=
  ∃ c, ReachesNormalizer a b c ∧ normalizeSum c = .inRange n

/-- The rounder passes `r` on to the encoder for the operands `a` and `b` (R102, R105). -/
def ReachesEncoder (a b : Word) (r : Rounded) : Prop :=
  ∃ n, ReachesRounder a b n ∧ roundSum n = .inRange r

end Sys2Proof.Machine
end

