-- ==== Sys2Proof/Certificates/Slice0/Obligations.lean ====
section
/-! DEFINITION. The statements for the provers, in the order of the spec's files. -/

open Sys2Proof Sys2Proof.Machine Sys2Proof.Config

/-! ### State, ports and steps: 10_state.md, 20_memory.md, 60_exceptions.md, 70_reset_and_hazards.md -/

/-- After reset the output is +0, by the stage rules, and the correct sum of the inputs, by the value-level rules. That
both inputs are +0 after reset is the model's choice (notes/assumptions/1.md). -/
def Obligations.ResetIsSettledAndCorrect : Prop :=
  State.reset.y = 0x00000000 ∧ State.reset.Correct

/-- The invariant: `y` is the correct sum (R56, R57, R61, R62) of what is on the input ports. -/
def Obligations.StepKeepsOutputCorrect : Prop :=
  ∀ s : State, s.Correct → ∀ s', step s = .next s' → s'.Correct

/-- R23: at every observation, and so also after every step, `y = ADD(a, b)` for the values then on `a` and `b`: what the
listing of R53 gives, and the correct sum. No state holds another output. -/
def Obligations.StepSettlesFromAnyState : Prop :=
  ∀ s : State,
    (s.y = addFloat32 s.a s.b ∧ s.y.toNat = addListing s.a.toNat s.b.toNat ∧ s.Correct) ∧
    ∀ s', step s = .next s' →
      s'.y = addFloat32 s'.a s'.b ∧ s'.y.toNat = addListing s'.a.toNat s'.b.toNat ∧ s'.Correct

/-- R107: a step has no fault outcome and no refusal outcome, and every input pair yields its sum. -/
def Obligations.EveryStepGivesANextState : Prop :=
  (∀ (i : Instr) (s : State), ∃ s', exec i s = .next s') ∧
  (∀ (a b : Word) (s : State), ∃ s', exec (.add a b) s = .next s' ∧ s'.a = a ∧ s'.b = b ∧ s'.y = addFloat32 a b) ∧
  ∀ s : State, ∃ s', step s = .next s' ∧ s'.y = addFloat32 s'.a s'.b

/-- A step executes exactly what the presented word decodes to. Which word that is, is the model's choice
(notes/assumptions/2.md, 3.md and 4.md): the head of `pending`, or, where the host presents nothing new, the transaction
that is on the ports; and `withFetchWord` presents a word of 64 bits as a transaction and of 32 bits as an operand alone. -/
def Obligations.StepRunsDecodedInstruction : Prop :=
  ∀ s : State,
    (∀ i, decode s.presented = i → step s = exec i s) ∧
    (∀ p rest, s.pending = p :: rest → step s = exec (decode p) s) ∧
    (s.pending = [] → step s = exec (.add s.a s.b) s) ∧
    (∀ w : TxnWord, step (s.withFetchWord 64 w.toNat) =
      exec (decode (.transaction w)) { s with pending := .transaction w :: s.pending }) ∧
    (∀ x : Word, step (s.withFetchWord 32 x.toNat) =
      exec (decode (.operand x)) { s with pending := .operand x :: s.pending })

/-- R12: `y` depends on `a` and `b` alone, whatever state the two evaluations start from. -/
def Obligations.SumDependsOnOperandsAlone : Prop :=
  ∀ (a b : Word) (s t s' t' : State), s.presented = .transaction (transactionWord a b) →
    t.presented = .transaction (transactionWord a b) → step s = .next s' → step t = .next t' →
    s'.a = t'.a ∧ s'.b = t'.b ∧ s'.y = t'.y

/-- Evaluating ADD a second time on the same inputs has no further effect (R29). -/
def Obligations.EvaluationIsIdempotent : Prop :=
  ∀ (a b : Word) (s s' : State), exec (.add a b) s = .next s' →
    exec (.add a b) { s' with pending := s.pending } = .next s'

/-- R32: two transactions give each pair the same result in either order of presentation. -/
def Obligations.OrderOfTransactionsIsUnobservable : Prop :=
  ∀ (v w : TxnWord) (s : State), ∃ s1 s2 t1 t2 : State,
    step { s with pending := [.transaction v, .transaction w] } = .next s1 ∧ step s1 = .next s2 ∧
    step { s with pending := [.transaction w, .transaction v] } = .next t1 ∧ step t1 = .next t2 ∧
    s1.y = t2.y ∧ s2.y = t1.y

/-- R126: a result fed back as an operand gives the composition of two evaluations. -/
def Obligations.DependentAdditionsCompose : Prop :=
  ∀ (a b c : Word) (s : State), ∃ s1 s2 : State,
    exec (.add a b) s = .next s1 ∧ exec (.add s1.y c) s1 = .next s2 ∧
      s2.y = addFloat32 (addFloat32 a b) c

/-! ### Encoding: 30_encoding.md -/

/-- Every well-formed instruction is what its own word decodes to. -/
def Obligations.DecodeOfEncodeIsIdentity : Prop :=
  ∀ i : Instr, i.wellFormed = true → decode (encode i) = i

/-- Every presentation decodes to a well-formed instruction, and no bit of it is lost. -/
def Obligations.EncodeOfDecodeIsIdentity : Prop :=
  ∀ p : Presentation, (decode p).wellFormed = true ∧ encode (decode p) = p

/-- R49: every transaction word is ADD of its two halves, and has the result that the listing of R53 gives. -/
def Obligations.EveryTransactionWordIsAdd : Prop :=
  ∀ w : TxnWord, ∃ a b : Word, w.toNat = a.toNat * 2 ^ 32 + b.toNat ∧
    decode (.transaction w) = .add a b ∧
      ∀ s : State, ∃ s', exec (decode (.transaction w)) s = .next s' ∧
        s'.y.toNat = addListing a.toNat b.toNat

/-- The words of a few rows, written out from the encodings of the opcode table, decode to those rows. -/
def Obligations.SampleWordsDecode : Prop :=
  decodeTableWord 64 0x3F80000040000000 = some (.add 0x3F800000 0x40000000) ∧
  decodeTableWord 32 0x80000000 = some (.classZero 1) ∧
  decodeTableWord 32 0x807FFFFF = some (.classSubnormal 1 0x7FFFFF) ∧
  decodeTableWord 32 0x3F800000 = some (.classNormal 0 0x7F 0) ∧
  decodeTableWord 32 0xFF800000 = some (.classInfinity 1) ∧
  decodeTableWord 32 0x7F800001 = some (.classNan 0 1)

/-- The raw-word decoder accepts the two formats of the opcode table, and rejects every other length and every word too
wide for its length by name (the model's own convention, notes/assumptions/3.md). -/
def Obligations.RawWordsDecodeByFormat : Prop :=
  (∀ w : TxnWord, decodeWord 64 w.toNat = .ok (decode (.transaction w))) ∧
  (∀ x : Word, decodeWord 32 x.toNat = .ok (decode (.operand x))) ∧
  (∀ n w : Nat, w < 2 ^ n → n ≠ 32 → n ≠ 64 → decodeWord n w = .error (.noSuchFormat n)) ∧
  (∀ n w : Nat, 2 ^ n ≤ w → decodeWord n w = .error (.wordTooWide n))

/-- R37, R39: the decoder gives the three fields bit by bit, on each operand, and loses no bit. -/
def Obligations.DecoderGivesEveryBit : Prop :=
  ∀ x : Word,
    (decodeFields x).sign.getLsbD 0 = x.getLsbD 31 ∧
    (∀ i < 8, (decodeFields x).exponent.getLsbD i = x.getLsbD (23 + i)) ∧
    (∀ i < 23, (decodeFields x).fraction.getLsbD i = x.getLsbD i) ∧
    x = packFields (decodeFields x).sign (decodeFields x).exponent (decodeFields x).fraction

/-- R40: the value of a finite pattern, and its forms for a Normal, a Subnormal and a Zero. -/
def Obligations.ValueOfFinitePattern : Prop :=
  ∀ x : Word, isFinite x = true →
    let s : ℚ := (-1) ^ (signField x).toNat
    let e : ℤ := (exponentField x).toNat
    let f : ℚ := (fractionField x).toNat
    let m : ℚ := (workingSignificand (decodeFields x)).toNat
    let xe : ℤ := (effectiveExponent (decodeFields x)).toNat
    value x = s * m * 2 ^ (xe - 150) ∧
    (classify x = .normal → value x = s * 2 ^ (e - 127) * (1 + f / 2 ^ 23)) ∧
    (classify x = .subnormal → value x = s * 2 ^ (-126 : ℤ) * (f / 2 ^ 23)) ∧
    (classify x = .zero → value x = 0)

/-- R41: the table of the classifier, by fields and by ranges of patterns; the sign plays no part. -/
def Obligations.ClassifierTable : Prop :=
  ∀ x : Word,
    (classify x = .zero ↔ exponentField x = 0 ∧ fractionField x = 0) ∧
    (classify x = .subnormal ↔ exponentField x = 0 ∧ fractionField x ≠ 0) ∧
    (classify x = .normal ↔ 1 ≤ (exponentField x).toNat ∧ (exponentField x).toNat ≤ 254) ∧
    (classify x = .infinity ↔ exponentField x = 255 ∧ fractionField x = 0) ∧
    (classify x = .nan ↔ exponentField x = 255 ∧ fractionField x ≠ 0) ∧
    (classify x = .zero ↔ x = 0x00000000 ∨ x = 0x80000000) ∧
    (classify x = .subnormal ↔ inSignedRange x 0x00000001 0x007FFFFF = true) ∧
    (classify x = .normal ↔ inSignedRange x 0x00800000 0x7F7FFFFF = true) ∧
    (classify x = .infinity ↔ x = 0x7F800000 ∨ x = 0xFF800000) ∧
    (classify x = .nan ↔ inSignedRange x 0x7F800001 0x7FFFFFFF = true) ∧
    classify (hostNegate x) = classify x

/-- The working significand of every pattern (R42), and the effective exponent of a Normal, a Subnormal and a Zero. -/
def Obligations.SignificandAndEffectiveExponent : Prop :=
  ∀ x : Word,
    workingSignificand (decodeFields x) =
      (if exponentField x ≠ 0 then 1#1 else 0#1) ++ fractionField x ∧
    (classify x = .normal →
      (workingSignificand (decodeFields x)).toNat = 2 ^ 23 + (fractionField x).toNat ∧
      0x800000 ≤ (workingSignificand (decodeFields x)).toNat ∧
      (workingSignificand (decodeFields x)).toNat ≤ 0xFFFFFF ∧
      effectiveExponent (decodeFields x) = exponentField x ∧
      1 ≤ (exponentField x).toNat ∧ (exponentField x).toNat ≤ 254) ∧
    (classify x = .subnormal ∨ classify x = .zero →
      (workingSignificand (decodeFields x)).toNat = (fractionField x).toNat ∧
      (workingSignificand (decodeFields x)).toNat ≤ 0x7FFFFF ∧
      effectiveExponent (decodeFields x) = 1)

/-- R44, R46: the fixed patterns of the results. -/
def Obligations.FixedResultPatterns : Prop :=
  zeroOf 0 = 0x00000000 ∧ zeroOf 1 = 0x80000000 ∧ infinityOf 0 = 0x7F800000 ∧ infinityOf 1 = 0xFF800000 ∧
  (∀ s, infinityOf s = packFields s 0xFF 0) ∧
  params.canonicalNan = 0x7FC00000 ∧ decodeFields params.canonicalNan = ⟨0, 255, 0x400000⟩ ∧
  ∀ s : State, ∃ t u : State, exec (.add 0x7F800000 0xFF800000) s = .next t ∧ t.y = params.canonicalNan ∧
    exec (.add 0xFF800000 0x7F800000) s = .next u ∧ u.y = params.canonicalNan

/-- R52: for patterns that are not NaN, magnitudes compare as the 31 bits below the sign do. -/
def Obligations.MagnitudesOrderAsPatterns : Prop :=
  ∀ p q : Word, classify p ≠ .nan → classify q ≠ .nan →
    (extendedMagnitude p < extendedMagnitude q ↔ magnitudeField p < magnitudeField q) ∧
    (extendedMagnitude p = extendedMagnitude q ↔ magnitudeField p = magnitudeField q)

/-! ### The operation ADD: 40_add.md -/

/-- R53: ADD takes the operands to the ports and writes to `y` what the listing of R53 gives, for every pair of operands
and from every state. -/
def Obligations.AddWritesTheSumOfTheListing : Prop :=
  ∀ (a b : Word) (s : State), ∃ t : State, exec (.add a b) s = .next t ∧
    t.a = a ∧ t.b = b ∧ t.y.toNat = addListing a.toNat b.toNat

/-- The whole next state of ADD: besides the ports, only the model's own field changes, in that the presentation has been
taken (the model's choice, notes/assumptions/4.md). -/
def Obligations.AddChangesNothingElse : Prop :=
  ∀ (a b : Word) (s : State),
    let t : State := { pending := s.pending.tail, a := a, b := b }
    exec (.add a b) s = .next t ∧ t.y = addFloat32 a b

/-- The rows of the opcode table that are operand classes: the pattern of each has the class that R41 gives it, and
executing the row takes the presentation and changes no port; nothing of the class is left (R21). That an operand can be
presented alone is the model's choice (notes/assumptions/2.md). -/
def Obligations.OperandRowsClassify : Prop :=
  ∀ s : State,
    let taken : State := { s with pending := s.pending.tail }
    taken.y = s.y ∧
    (∀ sign, classify (packFields sign 0 0) = .zero ∧ exec (.classZero sign) s = .next taken) ∧
    (∀ sign fraction, fraction ≠ 0 →
      classify (packFields sign 0 fraction) = .subnormal ∧ exec (.classSubnormal sign fraction) s = .next taken) ∧
    (∀ sign exponent fraction, exponent ≠ 0 → exponent ≠ 255 →
      classify (packFields sign exponent fraction) = .normal ∧
        exec (.classNormal sign exponent fraction) s = .next taken) ∧
    (∀ sign, classify (packFields sign 255 0) = .infinity ∧ exec (.classInfinity sign) s = .next taken) ∧
    (∀ sign fraction, fraction ≠ 0 →
      classify (packFields sign 255 fraction) = .nan ∧ exec (.classNan sign fraction) s = .next taken)

/-- Presenting any operand alone decodes it to the row of its class by R41 and leaves the ports as they are (the model's
choice, notes/assumptions/2.md); which operand it was shows nowhere in the next state (R21). -/
def Obligations.OperandAloneLeavesPorts : Prop :=
  ∀ (s : State) (x : Word),
    rowClass (decode (.operand x)) = some (classify x) ∧
    ∃ t : State, exec (decode (.operand x)) s = .next t ∧
      t = { s with pending := s.pending.tail } ∧ t.a = s.a ∧ t.b = s.b ∧ t.y = s.y

/-- R54: the class table of the result. -/
def Obligations.ResultClassTable : Prop :=
  ∀ a b : Word,
    let y := addFloat32 a b
    (classify a = .nan → y = a) ∧
    (classify a ≠ .nan → classify b = .nan → y = b) ∧
    (classify a = .infinity → classify b = .infinity → signField a = signField b → y = a) ∧
    (classify a = .infinity → classify b = .infinity → signField a ≠ signField b → y = 0x7FC00000) ∧
    (classify a = .infinity → isFinite b = true → y = a) ∧
    (isFinite a = true → classify b = .infinity → y = b) ∧
    (classify a = .zero → classify b = .zero →
      y = if a = 0x80000000 ∧ b = 0x80000000 then 0x80000000 else 0x00000000) ∧
    (classify a = .zero → isFiniteNonzero b = true → y = b) ∧
    (isFiniteNonzero a = true → classify b = .zero → y = a) ∧
    (isFiniteNonzero a = true → isFiniteNonzero b = true →
      y = 0x00000000 ∨
        ((classify y = .subnormal ∨ classify y = .normal ∨ classify y = .infinity) ∧
          signField y = signOfValue (value a + value b)))

/-- R56: the sum of two finite operands whose exact sum is not 0 is that sum rounded to nearest, ties to even. -/
def Obligations.SumIsRoundedToNearestEven : Prop :=
  ∀ a b : Word, isFinite a = true → isFinite b = true → value a + value b ≠ 0 →
    IsRne (value a + value b) (addFloat32 a b) ∧ classify (addFloat32 a b) ≠ .zero

/-- The datapath gives what one rounding of the exact integer sum gives, with no alignment and no sticky bit (R56). -/
def Obligations.DatapathEqualsExactRounding : Prop :=
  ∀ a b : Word, isFinite a = true → isFinite b = true → scaledValue a + scaledValue b ≠ 0 →
    addFloat32 a b = exactRne (scaledValue a + scaledValue b)

/-- The integer rounding is `RNE` of R56, for every whole multiple of `2^-149` that is not 0. -/
def Obligations.ExactRoundingIsRne : Prop :=
  ∀ v : Int, v ≠ 0 → IsRne ((v : ℚ) / 2 ^ 149) (exactRne v)

/-- `RNE` has one value: R56 leaves no choice of the result. -/
def Obligations.RoundedResultIsUnique : Prop :=
  ∀ (v : ℚ) (y z : Word), v ≠ 0 → IsRne v y → IsRne v z → y = z

/-- R57: sums that are exactly zero. -/
def Obligations.ExactZeroSums : Prop :=
  (∀ a b : Word, isFinite a = true → isFinite b = true → value a + value b = 0 →
    addFloat32 a b = if a = 0x80000000 ∧ b = 0x80000000 then 0x80000000 else 0x00000000) ∧
  ∀ x : Word, isFinite x = true → addFloat32 x (hostNegate x) = 0x00000000

/-- R58: ADD commutes bit for bit on every pair in which not both operands are NaN; on two NaN each order returns its own
first operand. -/
def Obligations.AdditionCommutes : Prop :=
  ∀ a b : Word,
    (¬(classify a = .nan ∧ classify b = .nan) → addFloat32 a b = addFloat32 b a) ∧
    (classify a = .nan → classify b = .nan → addFloat32 a b = a ∧ addFloat32 b a = b)

/-- R59, R60: the identities with +0 and with -0. -/
def Obligations.AddingZeroIsIdentity : Prop :=
  ∀ a : Word,
    (a ≠ 0x80000000 → addFloat32 a 0x00000000 = a) ∧
    addFloat32 0x80000000 0x00000000 = 0x00000000 ∧
    addFloat32 a 0x80000000 = a

/-- R61: NaN absorbs every operand, and the NaN that is returned is an operand unchanged. -/
def Obligations.NanAbsorbs : Prop :=
  ∀ a b : Word, classify a = .nan ∨ classify b = .nan →
    classify (addFloat32 a b) = .nan ∧ addFloat32 a b = if classify a = .nan then a else b

/-- R62: the rules for infinities. -/
def Obligations.InfinityRules : Prop :=
  addFloat32 0x7F800000 0x7F800000 = 0x7F800000 ∧
  addFloat32 0x7F800000 0xFF800000 = 0x7FC00000 ∧
  addFloat32 0xFF800000 0x7F800000 = 0x7FC00000 ∧
  classify 0x7FC00000 = .nan ∧
  addFloat32 0xFF800000 0xFF800000 = 0xFF800000 ∧
  ∀ x : Word, isFinite x = true →
    addFloat32 0x7F800000 x = 0x7F800000 ∧ addFloat32 x 0x7F800000 = 0x7F800000 ∧
    addFloat32 0xFF800000 x = 0xFF800000 ∧ addFloat32 x 0xFF800000 = 0xFF800000

/-- R63: a finite sum whose magnitude is below `2^-126` is exact. -/
def Obligations.TinySumsAreExact : Prop :=
  addFloat32 0x00000001 0x00000001 = 0x00000002 ∧
  ∀ a b : Word, isFinite a = true → isFinite b = true → |value a + value b| < 2 ^ (-126 : ℤ) →
    isFinite (addFloat32 a b) = true ∧ value (addFloat32 a b) = value a + value b

/-- R64, R65, R66: the overflow scenario, the literal scenario and the example of non-associativity. -/
def Obligations.SourceScenarios : Prop :=
  addFloat32 0x7F7FFFFF 0x7F7FFFFF = 0x7F800000 ∧
  addFloat32 0x41233333 0x3DCCCCCD = 0x4124CCCD ∧
  addFloat32 (addFloat32 0x4B800000 0x3F800000) 0x3F800000 = 0x4B800000 ∧
  addFloat32 0x4B800000 (addFloat32 0x3F800000 0x3F800000) = 0x4B800001

/-! ### Special-case dispatch: 41_special_cases.md -/

/-- R67: the nine lines of the dispatch in their order, each with its result (R69 to R77). -/
def Obligations.DispatchInOrder : Prop :=
  ∀ a b : Word, addFloat32 a b =
    if classify a = .nan then a
    else if classify b = .nan then b
    else if classify a = .infinity ∧ classify b = .infinity then
      (if signField a = signField b then a else 0x7FC00000)
    else if classify a = .infinity then a
    else if classify b = .infinity then b
    else if classify a = .zero ∧ classify b = .zero then (signField a &&& signField b) ++ (0 : BitVec 31)
    else if classify a = .zero then b
    else if classify b = .zero then a
    else generalResult a b

/-- The two parameters of a build touch only two NaN operands and infinities of opposite sign; with any canonical NaN the
result there is still a NaN (I1, I2, D5, D6). -/
def Obligations.ParametersTouchOnlyTheirCases : Prop :=
  ∀ (p : Params) (a b : Word), classify p.canonicalNan = .nan →
    (addFloat32With p a b ≠ addFloat32 a b →
      (classify a = .nan ∧ classify b = .nan ∧ p.nanSelect = .second ∧ addFloat32With p a b = b) ∨
      (classify a = .infinity ∧ classify b = .infinity ∧ signField a ≠ signField b ∧
        addFloat32With p a b = p.canonicalNan)) ∧
    (classify (addFloat32With p a b) = .nan ↔ classify (addFloat32 a b) = .nan) ∧
    (¬(classify a = .nan ∧ classify b = .nan) → addFloat32With p a b = addFloat32With p b a)

/-- R78: what reaches the aligner. -/
def Obligations.AlignerInputsAreFiniteNonzero : Prop :=
  ∀ a b : Word, dispatchLine (classify a) (classify b) = .generalPath →
    ∀ x : Word, x = a ∨ x = b →
      (classify x = .normal ∨ classify x = .subnormal) ∧
      1 ≤ (effectiveExponent (decodeFields x)).toNat ∧ (effectiveExponent (decodeFields x)).toNat ≤ 254 ∧
      1 ≤ (workingSignificand (decodeFields x)).toNat ∧ (workingSignificand (decodeFields x)).toNat ≤ 0xFFFFFF ∧
      ((workingSignificand (decodeFields x)).getLsbD 23 = true ↔ classify x = .normal)

/-! ### Aligner and magnitude engine: 42_align_combine.md -/

/-- R86: the jamming shift, bit by bit. -/
def Obligations.JammingShiftBits : Prop :=
  ∀ (v : BitVec 27) (d : Nat),
    (d = 0 → jamShiftRight v d = v) ∧
    (1 ≤ d → d < 27 →
      (∀ i, 1 ≤ i → (jamShiftRight v d).getLsbD i = v.getLsbD (i + d)) ∧
      ((jamShiftRight v d).getLsbD 0 = true ↔ ∃ j ≤ d, v.getLsbD j = true)) ∧
    (27 ≤ d → jamShiftRight v d = if v = 0 then 0 else 1)

/-- R87: the sticky bit is the OR of every bit shifted out, it is in bit 0 of the shifted operand already, and it is 0 for
shifts of an extended significand by at most 3. -/
def Obligations.StickyBitIsTheLostBits : Prop :=
  (∀ (v : BitVec 27) (d : Nat),
    (lostBits v d = 1 ↔ ∃ j < d, v.getLsbD j = true) ∧
    (lostBits v d = 1 → (jamShiftRight v d).getLsbD 0 = true)) ∧
  ∀ (m : BitVec 24) (d : Nat), d ≤ 3 → lostBits (extendSignificand m) d = 0

/-- R88: a shift by 26 or more leaves the sticky bit alone; a Normal shifted by 24 or 25 keeps its leading bit in the
guard or the round position, which the sum that the rule names shows. -/
def Obligations.LargeShiftsLeaveTheStickyBit : Prop :=
  (∀ (v : BitVec 27) (d : Nat), v ≠ 0 → 26 ≤ d → jamShiftRight v d = 1) ∧
  (∀ m : BitVec 24, m.getLsbD 23 = true →
    guardBit (jamShiftRight (extendSignificand m) 24) = 1 ∧
    roundBit (jamShiftRight (extendSignificand m) 25) = 1) ∧
  addFloat32 0x0D000000 0x80800001 = 0x0CFFFFFF

/-- The aligner's output for finite operands (R82 to R85): the larger effective exponent, that operand's significand
unshifted, and the other shifted by the difference. -/
def Obligations.AlignerShiftsTheSmallerExponent : Prop :=
  ∀ a b : Word, isFinite a = true → isFinite b = true →
    let al := alignOperands (decodeFields a) (decodeFields b)
    let xa := (effectiveExponent (decodeFields a)).toNat
    let xb := (effectiveExponent (decodeFields b)).toNat
    let a0 := extendSignificand (workingSignificand (decodeFields a))
    let b0 := extendSignificand (workingSignificand (decodeFields b))
    al.commonExponent.toNat = max xa xb ∧ 1 ≤ al.commonExponent.toNat ∧ al.commonExponent.toNat ≤ 254 ∧
    ((xa : ℤ) - xb).natAbs ≤ 253 ∧
    al.sigA = jamShiftRight a0 (xb - xa) ∧ al.sigB = jamShiftRight b0 (xa - xb) ∧
    al.stickyBit = (if xb ≤ xa then lostBits b0 (xa - xb) else lostBits a0 (xb - xa)) ∧
    (xa = xb → al.sigA = a0 ∧ al.sigB = b0 ∧ al.stickyBit = 0)

/-- The magnitude engine loses nothing: the sum and the difference of the aligned significands are exact in 28 bits, the
sign is that of the larger, and the carry is bit 27 (R89, R90, R93). -/
def Obligations.MagnitudeEngineIsExact : Prop :=
  ∀ (al : AlignedOperands) (sa sb : BitVec 1),
    (sa = sb → ∃ c, combineMagnitudes al sa sb = some c ∧ c.sign = sa ∧ c.op = .sameSign ∧
      c.sum.toNat = al.sigA.toNat + al.sigB.toNat) ∧
    (sa ≠ sb → al.sigB.toNat < al.sigA.toNat → ∃ c, combineMagnitudes al sa sb = some c ∧ c.sign = sa ∧
      c.op = .diffSign ∧ c.carry = 0 ∧ c.sum.toNat = al.sigA.toNat - al.sigB.toNat) ∧
    (sa ≠ sb → al.sigA.toNat < al.sigB.toNat → ∃ c, combineMagnitudes al sa sb = some c ∧ c.sign = sb ∧
      c.op = .diffSign ∧ c.carry = 0 ∧ c.sum.toNat = al.sigB.toNat - al.sigA.toNat) ∧
    ∀ c, combineMagnitudes al sa sb = some c →
      c.exponent = al.commonExponent ∧ (c.carry = 1 ↔ c.sum.getLsbD 27 = true)

/-- R91: exact cancellation gives +0, and happens only where `b` is `a` with its sign bit flipped. -/
def Obligations.CancellationGivesPositiveZero : Prop :=
  ∀ a b : Word, isFiniteNonzero a = true → isFiniteNonzero b = true →
    let al := alignOperands (decodeFields a) (decodeFields b)
    (combineMagnitudes al (signField a) (signField b) = none ↔ signField a ≠ signField b ∧ al.sigA = al.sigB) ∧
    (signField a ≠ signField b → al.sigA = al.sigB → b = hostNegate a ∧ addFloat32 a b = 0x00000000) ∧
    (b = hostNegate a → signField a ≠ signField b ∧ al.sigA = al.sigB)

/-- R92: the aligned significands compare as the magnitudes of the operands do. -/
def Obligations.AlignedSignificandsCompareAsMagnitudes : Prop :=
  ∀ a b : Word, isFiniteNonzero a = true → isFiniteNonzero b = true →
    let al := alignOperands (decodeFields a) (decodeFields b)
    (al.sigB.toNat < al.sigA.toNat ↔ |value b| < |value a|) ∧
    (al.sigA.toNat < al.sigB.toNat ↔ |value a| < |value b|) ∧
    (al.sigA = al.sigB ↔ |value a| = |value b|)

/-! ### Normalizer, rounder and encoder: 43_normalize_round_encode.md -/

/-- R94: a carry out happens only for operands of the same sign; the sum moves right by one with the dropped bit jammed
in, the exponent goes up by one, and 255 is the overflow. -/
def Obligations.CarryShiftsRightAndJams : Prop :=
  ∀ (a b : Word) (c : Combined), ReachesNormalizer a b c → c.sum.getLsbD 27 = true →
    c.op = .sameSign ∧
    (c.exponent.toNat + 1 = 255 →
      normalizeSum c = .overflow c.sign ∧ addFloat32 a b = infinityOf c.sign) ∧
    (c.exponent.toNat + 1 ≠ 255 → ∃ n, normalizeSum c = .inRange n ∧ n.sign = c.sign ∧
      n.exponent.toNat = c.exponent.toNat + 1 ∧
      (∀ i, 1 ≤ i → n.sum.getLsbD i = c.sum.getLsbD (i + 1)) ∧
      n.sum.getLsbD 0 = (c.sum.getLsbD 1 || c.sum.getLsbD 0))

/-- R95: with no carry the sum moves left by its leading zeros, at most `E - 1`; no set bit is shifted out, and the
exponent goes down by the same count. -/
def Obligations.LeftShiftLosesNoBit : Prop :=
  ∀ (a b : Word) (c : Combined), ReachesNormalizer a b c → c.sum.getLsbD 27 = false →
    let k := min (lzc27 (c.sum.setWidth 27)) (c.exponent.toNat - 1)
    k ≤ 24 ∧ ∃ n, normalizeSum c = .inRange n ∧ n.sign = c.sign ∧ n.sum.toNat = c.sum.toNat * 2 ^ k ∧
      n.exponent.toNat = c.exponent.toNat - k ∧ 1 ≤ n.exponent.toNat ∧ n.exponent.toNat ≤ 254

/-- The leading zeros of a 27-bit value, counted from bit 26 down, and 27 for the value 0 (00_scope.md section 5). -/
def Obligations.LeadingZeroCount : Prop :=
  lzc27 0 = 27 ∧
  ∀ v : BitVec 27, v ≠ 0 → lzc27 v ≤ 26 ∧ v.getLsbD (26 - lzc27 v) = true ∧
    ∀ i, 26 - lzc27 v < i → v.getLsbD i = false

/-- R96: where the cap stops the left shift first, the exponent is 1, bit 26 is 0 and the result is a Subnormal. -/
def Obligations.SubnormalClamp : Prop :=
  ∀ (a b : Word) (c : Combined), ReachesNormalizer a b c → c.sum.getLsbD 27 = false →
    c.exponent.toNat - 1 < lzc27 (c.sum.setWidth 27) →
    (∃ n, normalizeSum c = .inRange n ∧ n.exponent = 1 ∧ n.sum.getLsbD 26 = false) ∧
    classify (addFloat32 a b) = .subnormal ∧ exponentField (addFloat32 a b) = 0

/-- The limits of the left shift (R97), with the operands that reach 24. -/
def Obligations.LeftShiftLimits : Prop :=
  (∀ (a b : Word) (c : Combined), ReachesNormalizer a b c → c.sum.getLsbD 27 = false →
    let d := ((effectiveExponent (decodeFields a)).toNat - (effectiveExponent (decodeFields b)).toNat : ℤ).natAbs
    (c.op = .sameSign → leftShiftCount c = 0) ∧
    (c.op = .diffSign → 2 ≤ d → leftShiftCount c ≤ 1) ∧
    (c.op = .diffSign → d ≤ 1 → leftShiftCount c ≤ 24)) ∧
  ∃ c, ReachesNormalizer 0x40000000 0xBFFFFFFF c ∧ c.sum = 4 ∧ leftShiftCount c = 24 ∧
    addFloat32 0x40000000 0xBFFFFFFF = 0x34000000

/-- R98: a subnormal result is exact: the three bits below its significand are 0 and the rounder adds nothing. -/
def Obligations.SubnormalResultsAreExact : Prop :=
  ∀ (a b : Word) (n : Normalized), ReachesRounder a b n → n.sum.getLsbD 26 = false →
    n.sum.extractLsb' 0 3 = 0 ∧ roundIncrement n.sum = 0 ∧ n.sum ≠ 0 ∧
      classify (addFloat32 a b) = .subnormal ∧ value (addFloat32 a b) = value a + value b

/-- R100: the five cases of the round-to-nearest-even increment. -/
def Obligations.RoundingIncrementCases : Prop :=
  ∀ n : BitVec 27,
    (guardBit n = 0 → roundIncrement n = 0) ∧
    (guardBit n = 1 → roundBit n = 1 → roundIncrement n = 1) ∧
    (guardBit n = 1 → roundBit n = 0 → stickyBit n = 1 → roundIncrement n = 1) ∧
    (guardBit n = 1 → roundBit n = 0 → stickyBit n = 0 → roundIncrement n = lastRetainedBit n)

/-- R101, R102: the incremented significand, and the rounding carry, which loses no bit. The exponents that reach the
rounder are 1 to 254 (`LeftShiftLosesNoBit`, `CarryShiftsRightAndJams`). -/
def Obligations.RoundingCarry : Prop :=
  ∀ n : Normalized,
    let m1 := incrementedSignificand n.sum
    m1.toNat = n.sum.toNat / 8 + (roundIncrement n.sum).toNat ∧
    (m1.getLsbD 24 = true →
      m1 = 0x1000000 ∧ n.sum.toNat / 8 = 0xFFFFFF ∧ roundIncrement n.sum = 1 ∧
      (n.exponent.toNat + 1 = 255 → roundSum n = .overflow n.sign) ∧
      (n.exponent.toNat + 1 < 255 →
        ∃ r, roundSum n = .inRange r ∧ r.sign = n.sign ∧ r.significand = 0x800000 ∧
          r.exponent.toNat = n.exponent.toNat + 1)) ∧
    (m1.getLsbD 24 = false →
      ∃ r, roundSum n = .inRange r ∧ r.sign = n.sign ∧ r.significand.toNat = m1.toNat ∧ r.exponent = n.exponent)

/-- R103: both overflows end in the infinity of the result sign. -/
def Obligations.OverflowGivesInfinity : Prop :=
  ∀ (a b : Word) (c : Combined), ReachesNormalizer a b c →
    (normalizeSum c = .overflow c.sign → addFloat32 a b = c.sign ++ 0xFF#8 ++ 0#23) ∧
    ∀ n, normalizeSum c = .inRange n → roundSum n = .overflow c.sign →
      addFloat32 a b = c.sign ++ 0xFF#8 ++ 0#23

/-- R104, R105: whenever the encoder runs, its exponent is in 1 to 254, a clear hidden bit means exponent 1, and the result
is packed from the sign, that exponent or 0, and the 23 bits below the hidden bit. -/
def Obligations.EncoderRange : Prop :=
  ∀ (a b : Word) (r : Rounded), ReachesEncoder a b r →
    1 ≤ r.exponent.toNat ∧ r.exponent.toNat ≤ 254 ∧
    (r.significand.getLsbD 23 = false → r.exponent = 1) ∧
    addFloat32 a b =
      r.sign ++ (if r.significand.getLsbD 23 = true then r.exponent else 0) ++ r.significand.extractLsb' 0 23 ∧
    exponentField (addFloat32 a b) ≠ 255

/-- R106: a result of the general path is never NaN and never -0, and is +0 only through exact cancellation. -/
def Obligations.GeneralPathNeverNanNorNegativeZero : Prop :=
  ∀ a b : Word, isFiniteNonzero a = true → isFiniteNonzero b = true →
    classify (addFloat32 a b) ≠ .nan ∧ addFloat32 a b ≠ 0x80000000 ∧
    (addFloat32 a b = 0x00000000 ↔ b = hostNegate a) ∧
    ∀ c, ReachesNormalizer a b c →
      signField (addFloat32 a b) = c.sign ∧
        (classify (addFloat32 a b) = .subnormal ∨ classify (addFloat32 a b) = .normal ∨
          addFloat32 a b = infinityOf c.sign)

/-! ### Added after a review -/

/-- Where the host presents nothing new, a step leaves the state as it is: it evaluates the pair on the ports again (the
model's choice, notes/assumptions/4.md). -/
def Obligations.IdleStepChangesNothing : Prop :=
  ∀ s : State, s.pending = [] → step s = .next s

/-- What the notes of the operand rows in the opcode table say: which lines of the dispatch (R67) an operand of the row
decides, as the first and as the second operand. -/
def Obligations.OperandRowsDecideDispatchLines : Prop :=
  ∀ x z : Word,
    let first := dispatchLine (classify x) (classify z)
    let second := dispatchLine (classify z) (classify x)
    let row := rowClass (decode (.operand x))
    (row = some .zero → isFinite z = true →
      (first = .bothZero ∨ first = .zeroA) ∧ (second = .bothZero ∨ second = .zeroB)) ∧
    (row = some .subnormal ∨ row = some .normal → isFiniteNonzero z = true →
      first = .generalPath ∧ second = .generalPath) ∧
    (row = some .infinity → classify z ≠ .nan →
      (first = .bothInfinite ∨ first = .infiniteA) ∧ (second = .bothInfinite ∨ second = .infiniteB)) ∧
    (row = some .nan → first = .nanA ∧ (second = .nanA ∨ second = .nanB))
end

