-- ==== Sys2Proof/Laws/Operands.lean ====
section
/-! SUPPORT. Fields and patterns: unpacking what was packed, the classifier by numbers, and the significand and effective
exponent by numbers. -/

namespace Sys2Proof.Machine

variable (s : BitVec 1) (e : BitVec 8) (f : BitVec 23) (x : Word)

theorem signField_toNat : (signField x).toNat = x.toNat / 2 ^ 31 := by
  simp only [signField, BitVec.extractLsb'_toNat, Nat.shiftRight_eq_div_pow]
  have := x.isLt
  omega

theorem exponentField_toNat : (exponentField x).toNat = x.toNat / 2 ^ 23 % 2 ^ 8 := by
  simp only [exponentField, BitVec.extractLsb'_toNat, Nat.shiftRight_eq_div_pow]

theorem fractionField_toNat : (fractionField x).toNat = x.toNat % 2 ^ 23 := by
  simp only [fractionField, BitVec.extractLsb'_toNat, Nat.shiftRight_eq_div_pow, pow_zero, Nat.div_one]

theorem magnitudeField_toNat : (magnitudeField x).toNat = x.toNat % 2 ^ 31 := by
  simp only [magnitudeField, BitVec.extractLsb'_toNat, Nat.shiftRight_eq_div_pow, pow_zero, Nat.div_one]

/-- A packed pattern as a number (R37). -/
theorem packFields_toNat : (packFields s e f).toNat = s.toNat * 2 ^ 31 + e.toNat * 2 ^ 23 + f.toNat := by
  change (s ++ e ++ f : BitVec (1 + 8 + 23)).toNat = _
  have he := e.isLt
  have hf := f.isLt
  rw [BitVec.toNat_append, BitVec.toNat_append, ← Nat.shiftLeft_add_eq_or_of_lt hf,
    ← Nat.shiftLeft_add_eq_or_of_lt he, Nat.shiftLeft_eq, Nat.shiftLeft_eq]
  ring

@[simp] theorem signField_packFields : signField (packFields s e f) = s := by
  have := s.isLt; have := e.isLt; have := f.isLt
  apply BitVec.eq_of_toNat_eq
  rw [signField_toNat, packFields_toNat]
  omega

@[simp] theorem exponentField_packFields : exponentField (packFields s e f) = e := by
  have := s.isLt; have := e.isLt; have := f.isLt
  apply BitVec.eq_of_toNat_eq
  rw [exponentField_toNat, packFields_toNat]
  omega

@[simp] theorem fractionField_packFields : fractionField (packFields s e f) = f := by
  have := s.isLt; have := e.isLt; have := f.isLt
  apply BitVec.eq_of_toNat_eq
  rw [fractionField_toNat, packFields_toNat]
  omega

/-- No bit of a pattern lies outside its three fields (R39). -/
theorem packFields_fields : packFields (signField x) (exponentField x) (fractionField x) = x := by
  apply BitVec.eq_of_toNat_eq
  rw [packFields_toNat, signField_toNat, exponentField_toNat, fractionField_toNat]
  omega

/-- A pattern as a number, from its three fields. -/
theorem toNat_eq_fields :
    x.toNat = (signField x).toNat * 2 ^ 31 + (exponentField x).toNat * 2 ^ 23 + (fractionField x).toNat := by
  rw [← packFields_toNat, packFields_fields]

/-- Two patterns are equal where their fields are. -/
theorem word_ext {x y : Word} (hs : signField x = signField y) (he : exponentField x = exponentField y)
    (hf : fractionField x = fractionField y) : x = y := by
  rw [← packFields_fields x, ← packFields_fields y, hs, he, hf]

@[simp] theorem classify_packFields : classify (packFields s e f) = classOfFields e f := by
  simp [classify]

theorem classify_eq_zero : classify x = .zero ↔ exponentField x = 0 ∧ fractionField x = 0 := by
  unfold classify classOfFields; split_ifs <;> simp_all

theorem classify_eq_subnormal : classify x = .subnormal ↔ exponentField x = 0 ∧ fractionField x ≠ 0 := by
  unfold classify classOfFields; split_ifs <;> simp_all

theorem classify_eq_normal : classify x = .normal ↔ exponentField x ≠ 0 ∧ exponentField x ≠ 255 := by
  unfold classify classOfFields; split_ifs <;> simp_all

theorem classify_eq_infinity : classify x = .infinity ↔ exponentField x = 255 ∧ fractionField x = 0 := by
  unfold classify classOfFields; split_ifs <;> simp_all

theorem classify_eq_nan : classify x = .nan ↔ exponentField x = 255 ∧ fractionField x ≠ 0 := by
  unfold classify classOfFields; split_ifs <;> simp_all

theorem isFinite_iff : isFinite x = true ↔ exponentField x ≠ 255 := by
  simp [isFinite]

theorem isFinite_iff_class : isFinite x = true ↔ classify x ≠ .infinity ∧ classify x ≠ .nan := by
  rw [isFinite_iff, Ne, Ne, Ne, classify_eq_infinity, classify_eq_nan]
  tauto

theorem isFiniteNonzero_iff : isFiniteNonzero x = true ↔ classify x = .normal ∨ classify x = .subnormal := by
  simp [isFiniteNonzero]

/-- A finite nonzero pattern has an exponent below 255 and some magnitude bit set. -/
theorem isFiniteNonzero_iff_fields :
    isFiniteNonzero x = true ↔ exponentField x ≠ 255 ∧ ¬(exponentField x = 0 ∧ fractionField x = 0) := by
  rw [isFiniteNonzero_iff, classify_eq_normal, classify_eq_subnormal]
  by_cases h0 : exponentField x = 0 <;> by_cases h1 : exponentField x = 255 <;> simp_all

/-- The working significand as a number (R42). -/
theorem workingSignificand_toNat :
    (workingSignificand (decodeFields x)).toNat =
      (if exponentField x = 0 then 0 else 2 ^ 23) + (fractionField x).toNat := by
  have hf := (fractionField x).isLt
  have hw (h : BitVec 1) : (h ++ fractionField x : BitVec (1 + 23)).toNat = h.toNat * 2 ^ 23 + (fractionField x).toNat := by
    rw [BitVec.toNat_append, ← Nat.shiftLeft_add_eq_or_of_lt hf, Nat.shiftLeft_eq]
  refine (hw _).trans ?_
  by_cases h : exponentField x = 0#8 <;> simp [decodeFields, h]

/-- The effective exponent as a number (R43). -/
theorem effectiveExponent_toNat :
    (effectiveExponent (decodeFields x)).toNat =
      if exponentField x = 0 then 1 else (exponentField x).toNat := by
  by_cases h : exponentField x = 0#8 <;> simp [effectiveExponent, decodeFields, h]

theorem effectiveExponent_pos : 1 ≤ (effectiveExponent (decodeFields x)).toNat := by
  rw [effectiveExponent_toNat]
  split
  · omega
  · rename_i h
    have : (exponentField x).toNat ≠ 0 := fun h0 => h (BitVec.eq_of_toNat_eq (by simpa using h0))
    omega

theorem effectiveExponent_le (h : isFinite x = true) : (effectiveExponent (decodeFields x)).toNat ≤ 254 := by
  rw [isFinite_iff] at h
  have h2 : (exponentField x).toNat ≠ 255 := fun h0 => h (BitVec.eq_of_toNat_eq (by simpa using h0))
  have := (exponentField x).isLt
  rw [effectiveExponent_toNat]
  split <;> omega

/-- An effective exponent above 1 is that of a Normal: its hidden bit is set (R43). -/
theorem workingSignificand_ge_of_exponent (h : 2 ≤ (effectiveExponent (decodeFields x)).toNat) :
    2 ^ 23 ≤ (workingSignificand (decodeFields x)).toNat := by
  rw [effectiveExponent_toNat] at h
  rw [workingSignificand_toNat]
  split_ifs at h ⊢ <;> omega

theorem workingSignificand_pos (h : isFiniteNonzero x = true) :
    1 ≤ (workingSignificand (decodeFields x)).toNat := by
  rw [isFiniteNonzero_iff_fields] at h
  rw [workingSignificand_toNat]
  split_ifs with h0
  · have : (fractionField x).toNat ≠ 0 := fun h1 => h.2 ⟨h0, BitVec.eq_of_toNat_eq (by simpa using h1)⟩
    omega
  · omega

/-- `NEG` as a number: the sign bit moves by `2^31` (R51). -/
theorem hostNegate_toNat :
    (hostNegate x).toNat = if x.toNat < 2 ^ 31 then x.toNat + 2 ^ 31 else x.toNat - 2 ^ 31 := by
  have hx := x.isLt
  have hn : (hostNegate x).toNat = x.toNat ^^^ 2 ^ 31 := by simp [hostNegate, BitVec.toNat_xor]
  have hd : (hostNegate x).toNat / 2 ^ 31 = x.toNat / 2 ^ 31 ^^^ 1 := by rw [hn, Nat.xor_div_two_pow]; norm_num
  have hm : (hostNegate x).toNat % 2 ^ 31 = x.toNat % 2 ^ 31 := by
    rw [hn, Nat.xor_mod_two_pow, Nat.mod_self, Nat.xor_zero]
  have hq : x.toNat / 2 ^ 31 = 0 ∨ x.toNat / 2 ^ 31 = 1 := by omega
  rcases hq with hq | hq <;> rw [hq] at hd <;> norm_num at hd <;> split_ifs <;> omega

@[simp] theorem exponentField_hostNegate : exponentField (hostNegate x) = exponentField x := by
  apply BitVec.eq_of_toNat_eq
  rw [exponentField_toNat, exponentField_toNat, hostNegate_toNat]
  split_ifs <;> omega

@[simp] theorem fractionField_hostNegate : fractionField (hostNegate x) = fractionField x := by
  apply BitVec.eq_of_toNat_eq
  rw [fractionField_toNat, fractionField_toNat, hostNegate_toNat]
  split_ifs <;> omega

theorem signField_hostNegate_toNat : (signField (hostNegate x)).toNat = 1 - (signField x).toNat := by
  have hx := x.isLt
  rw [signField_toNat, signField_toNat, hostNegate_toNat]
  split_ifs <;> omega

end Sys2Proof.Machine
end

