-- ==== Sys2Proof/Laws/Rounding.lean ====
section
/-! SUPPORT. Arithmetic of the jamming shift and of rounding to nearest even, on natural numbers. The jamming shift rounds
a quotient to odd; rounding to nearest even at least two bits higher then gives the same as rounding the unshifted number
once. -/

namespace Sys2Proof.Machine

/-- The jamming shift as rounding to odd: an inexact quotient becomes the odd number next to it. -/
def oddQuotient (n d : Nat) : Nat := if n % 2 ^ d = 0 then n / 2 ^ d else n / 2 ^ d / 2 * 2 + 1

theorem or_one_eq (q : Nat) : q ||| 1 = q / 2 * 2 + 1 := by
  have h1 : (q ||| 1) / 2 = q / 2 := by
    have := Nat.or_div_two_pow (a := q) (b := 1) (n := 1)
    simpa using this
  have h2 : (q ||| 1) % 2 = 1 := by
    rw [Nat.or_mod_two_eq_one]
    right
    rfl
  omega

/-- On 27 bits the jamming shift of R86 is rounding to odd, for every shift. -/
theorem jamNat_eq_oddQuotient {v : Nat} (d : Nat) (hv : v < 2 ^ 27) : jamNat v d = oddQuotient v d := by
  unfold jamNat oddQuotient
  by_cases h0 : d = 0
  · subst h0; simp [Nat.mod_one]
  · rw [if_neg h0]
    by_cases h27 : d < 27
    · rw [if_pos h27]
      split_ifs
      · simp
      · exact or_one_eq _
    · rw [if_neg h27]
      have hlt : v < 2 ^ d := lt_of_lt_of_le hv (Nat.pow_le_pow_right (by norm_num) (by omega))
      rw [Nat.mod_eq_of_lt hlt, Nat.div_eq_of_lt hlt]

theorem oddQuotient_zero (n : Nat) : oddQuotient n 0 = n := by
  simp [oddQuotient, Nat.mod_one]

theorem oddQuotient_of_dvd {n d : Nat} (h : n % 2 ^ d = 0) : oddQuotient n d = n / 2 ^ d := by
  simp [oddQuotient, h]

theorem oddQuotient_of_not_dvd {n d : Nat} (h : n % 2 ^ d ≠ 0) : oddQuotient n d = n / 2 ^ d / 2 * 2 + 1 := by
  simp [oddQuotient, h]

/-- Rounding to odd stays on the same side of every even number. -/
theorem even_le_oddQuotient_iff {n d m : Nat} : 2 * m ≤ oddQuotient n d ↔ 2 * m * 2 ^ d ≤ n := by
  have hp : 0 < 2 ^ d := Nat.two_pow_pos d
  rw [← Nat.le_div_iff_mul_le hp]
  unfold oddQuotient
  split_ifs <;> omega

/-- Rounding to odd commutes with adding an even multiple of the divisor. -/
theorem oddQuotient_add_even (n d m : Nat) : oddQuotient (2 * m * 2 ^ d + n) d = 2 * m + oddQuotient n d := by
  have hp : 0 < 2 ^ d := Nat.two_pow_pos d
  have hq : (2 * m * 2 ^ d + n) / 2 ^ d = 2 * m + n / 2 ^ d := by
    rw [Nat.add_comm, Nat.add_mul_div_right _ _ hp, Nat.add_comm]
  have hr : (2 * m * 2 ^ d + n) % 2 ^ d = n % 2 ^ d := by
    rw [Nat.add_comm, Nat.add_mul_mod_self_right]
  unfold oddQuotient
  rw [hq, hr]
  split_ifs <;> omega

/-- Rounding to odd commutes with subtracting from an even multiple of the divisor. -/
theorem oddQuotient_even_sub {n d m : Nat} (h : n ≤ 2 * m * 2 ^ d) :
    oddQuotient (2 * m * 2 ^ d - n) d = 2 * m - oddQuotient n d := by
  have hp : 0 < 2 ^ d := Nat.two_pow_pos d
  by_cases hr : n % 2 ^ d = 0
  · obtain ⟨q, rfl⟩ := Nat.dvd_of_mod_eq_zero hr
    have : 2 * m * 2 ^ d - 2 ^ d * q = 2 ^ d * (2 * m - q) := by
      rw [Nat.mul_sub, Nat.mul_comm (2 ^ d) (2 * m)]
    rw [this, oddQuotient_of_dvd (by simp), oddQuotient_of_dvd (by simp), Nat.mul_div_cancel_left _ hp,
      Nat.mul_div_cancel_left _ hp]
  · have hn : n = 2 ^ d * (n / 2 ^ d) + n % 2 ^ d := (Nat.div_add_mod n (2 ^ d)).symm
    have hlt : n % 2 ^ d < 2 ^ d := Nat.mod_lt _ hp
    generalize hq : n / 2 ^ d = q at *
    generalize hrr : n % 2 ^ d = r at *
    have hqm : q < 2 * m := by
      by_contra hc
      have : 2 ^ d * (2 * m) ≤ 2 ^ d * q := Nat.mul_le_mul_left _ (by omega)
      rw [Nat.mul_comm (2 * m)] at h
      omega
    have hx : 2 * m * 2 ^ d - n = (2 * m - q - 1) * 2 ^ d + (2 ^ d - r) := by
      obtain ⟨t, ht⟩ : ∃ t, 2 * m = q + 1 + t := ⟨2 * m - q - 1, by omega⟩
      rw [ht, hn, show q + 1 + t - q - 1 = t by omega]
      have : (q + 1 + t) * 2 ^ d = 2 ^ d * q + 2 ^ d + t * 2 ^ d := by ring
      omega
    have hxq : (2 * m * 2 ^ d - n) / 2 ^ d = 2 * m - q - 1 := by
      rw [hx, Nat.mul_comm, Nat.mul_add_div hp, Nat.div_eq_of_lt (by omega), Nat.add_zero]
    have hxr : (2 * m * 2 ^ d - n) % 2 ^ d = 2 ^ d - r := by
      rw [hx, Nat.mul_comm, Nat.mul_add_mod, Nat.mod_eq_of_lt (by omega)]
    rw [oddQuotient_of_not_dvd (by omega), oddQuotient_of_not_dvd (by omega), hxq, hq]
    omega

/-- Scaling the number and the divisor alike changes no rounded quotient. -/
theorem roundedQuotient_scale (n k j : Nat) : roundedQuotient (n * 2 ^ j) (k + j) = roundedQuotient n k := by
  have hp : 0 < 2 ^ j := Nat.two_pow_pos j
  have hq : n * 2 ^ j / 2 ^ (k + j) = n / 2 ^ k := by rw [pow_add, Nat.mul_div_mul_right _ _ hp]
  have hr : n * 2 ^ j % 2 ^ (k + j) = n % 2 ^ k * 2 ^ j := by rw [pow_add, Nat.mul_mod_mul_right]
  have h1 : 2 * (n % 2 ^ k * 2 ^ j) < 2 ^ (k + j) ↔ 2 * (n % 2 ^ k) < 2 ^ k := by
    rw [pow_add, ← Nat.mul_assoc, Nat.mul_lt_mul_right hp]
  have h2 : 2 ^ (k + j) < 2 * (n % 2 ^ k * 2 ^ j) ↔ 2 ^ k < 2 * (n % 2 ^ k) := by
    rw [pow_add, ← Nat.mul_assoc, Nat.mul_lt_mul_right hp]
  simp only [roundedQuotient, hq, hr, h1, h2]

@[simp] theorem roundedQuotient_zero (n : Nat) : roundedQuotient n 0 = n := by
  simp [roundedQuotient, Nat.mod_one]

/-- A number rounded to odd rounds to nearest even, two or more bits higher, as the number itself does. -/
theorem roundedQuotient_oddQuotient (n d k : Nat) (hk : 2 ≤ k) :
    roundedQuotient (oddQuotient n d) k = roundedQuotient n (k + d) := by
  have hp : 0 < 2 ^ d := Nat.two_pow_pos d
  by_cases hr : n % 2 ^ d = 0
  · obtain ⟨q, rfl⟩ := Nat.dvd_of_mod_eq_zero hr
    rw [oddQuotient_of_dvd (by simp), Nat.mul_div_cancel_left _ hp, Nat.mul_comm, roundedQuotient_scale]
  · obtain ⟨j, rfl⟩ : ∃ j, k = j + 2 := ⟨k - 2, by omega⟩
    rw [oddQuotient_of_not_dvd hr]
    have hn : n = 2 ^ d * (n / 2 ^ d) + n % 2 ^ d := (Nat.div_add_mod n (2 ^ d)).symm
    have hlt : n % 2 ^ d < 2 ^ d := Nat.mod_lt _ hp
    have hdiv : n / 2 ^ (j + 2 + d) = n / 2 ^ d / 2 ^ (j + 2) := by
      rw [Nat.div_div_eq_div_mul, ← pow_add, Nat.add_comm d]
    have hmod : n % 2 ^ (j + 2 + d) = 2 ^ d * (n / 2 ^ d % 2 ^ (j + 2)) + n % 2 ^ d := by
      rw [Nat.add_comm (j + 2) d, pow_add, Nat.mod_mul]
      omega
    generalize n / 2 ^ d = q at *
    generalize n % 2 ^ d = r at *
    have h4 : 2 ^ (j + 2) = 4 * 2 ^ j := by rw [pow_add]; ring
    have hj : 0 < 2 ^ j := Nat.two_pow_pos j
    have hoq : (q / 2 * 2 + 1) / 2 ^ (j + 2) = q / 2 ^ (j + 2) := by
      rw [h4, show 4 * 2 ^ j = 2 * (2 * 2 ^ j) by ring, ← Nat.div_div_eq_div_mul _ 2, ← Nat.div_div_eq_div_mul q 2]
      congr 1
      omega
    have hor : (q / 2 * 2 + 1) % 2 ^ (j + 2) = q % 2 ^ (j + 2) / 2 * 2 + 1 := by
      have e1 := Nat.div_add_mod q (2 ^ (j + 2))
      have e2 := Nat.div_add_mod (q / 2 * 2 + 1) (2 ^ (j + 2))
      rw [hoq] at e2
      rw [h4] at *
      have : 4 * 2 ^ j * (q / (4 * 2 ^ j)) = 2 * (2 * (2 ^ j * (q / (4 * 2 ^ j)))) := by ring
      omega
    have hrlt : q % 2 ^ (j + 2) < 2 ^ (j + 2) := Nat.mod_lt _ (Nat.two_pow_pos _)
    unfold roundedQuotient
    simp only [hoq, hor, hdiv, hmod]
    generalize q / 2 ^ (j + 2) = Q at *
    generalize q % 2 ^ (j + 2) = R at *
    have hpd : 2 ^ (j + 2 + d) = 4 * 2 ^ j * 2 ^ d := by rw [pow_add, h4]
    rw [hpd, h4] at *
    by_cases hR : R < 2 * 2 ^ j
    · have h1 : 2 ^ d * (R + 1) ≤ 2 ^ d * (2 * 2 ^ j) := Nat.mul_le_mul_left _ hR
      have h2 : 2 ^ d * (2 * 2 ^ j) * 2 = 4 * 2 ^ j * 2 ^ d := by ring
      have h3 : 2 ^ d * (R + 1) = 2 ^ d * R + 2 ^ d := by ring
      rw [if_pos (by omega), if_pos (by omega)]
    · have h1 : 2 ^ d * (2 * 2 ^ j) ≤ 2 ^ d * R := Nat.mul_le_mul_left _ (by omega)
      have h2 : 2 ^ d * (2 * 2 ^ j) * 2 = 4 * 2 ^ j * 2 ^ d := by ring
      rw [if_neg (by omega), if_pos (by omega), if_neg (by omega), if_pos (by omega)]

/-- Rounding to odd twice is rounding to odd once. -/
theorem oddQuotient_oddQuotient_one (n d : Nat) : oddQuotient (oddQuotient n d) 1 = oddQuotient n (d + 1) := by
  have hdm : n % 2 ^ (d + 1) = 2 ^ d * (n / 2 ^ d % 2) + n % 2 ^ d := by
    rw [pow_succ, Nat.mod_mul]; omega
  have hdd : n / 2 ^ (d + 1) = n / 2 ^ d / 2 := by rw [pow_succ, Nat.div_div_eq_div_mul]
  have hp : 0 < 2 ^ d := Nat.two_pow_pos d
  unfold oddQuotient
  rw [hdm, hdd]
  generalize n / 2 ^ d = q
  generalize n % 2 ^ d = r
  rcases Nat.mod_two_eq_zero_or_one q with h | h <;> by_cases hr : r = 0 <;> simp [h, hr] <;> omega

end Sys2Proof.Machine
end

