-- ==== Sys2Proof/Laws/Datapath.lean ====
section
/-! SUPPORT. Each stage of the datapath by numbers: what the aligner, the magnitude engine, the normalizer, the rounder and
the encoder compute, as natural numbers. -/

namespace Sys2Proof.Machine

/-! ### Aligner -/

theorem extendSignificand_toNat (m : BitVec 24) : (extendSignificand m).toNat = m.toNat * 8 := by
  change (m ++ 0#3 : BitVec (24 + 3)).toNat = _
  rw [BitVec.toNat_append, ← Nat.shiftLeft_add_eq_or_of_lt (by simp), Nat.shiftLeft_eq]
  simp

theorem orReduce_toNat {n : Nat} (v : BitVec n) : (orReduce v).toNat = if v.toNat = 0 then 0 else 1 := by
  unfold orReduce
  by_cases h : v = 0
  · subst h; simp
  · rw [if_neg h, if_neg (fun h0 => h (BitVec.eq_of_toNat_eq (by simpa using h0)))]; rfl

theorem orLowBits_toNat (v : BitVec 27) (n : Nat) :
    (orLowBits v n).toNat = if v.toNat % 2 ^ n = 0 then 0 else 1 := by
  unfold orLowBits
  split_ifs <;> rfl

/-- The jamming shift of R86 is rounding to odd. -/
theorem jamShiftRight_toNat (v : BitVec 27) (d : Nat) : (jamShiftRight v d).toNat = oddQuotient v.toNat d := by
  rw [← jamNat_eq_oddQuotient d v.isLt]
  unfold jamShiftRight jamNat
  split_ifs with h0 h27 hm hv
  · rfl
  · simp [BitVec.toNat_setWidth, orLowBits_toNat, hm, Nat.shiftRight_eq_div_pow]
  · simp [BitVec.toNat_setWidth, orLowBits_toNat, hm, Nat.shiftRight_eq_div_pow]
  · simp [BitVec.toNat_setWidth, orReduce_toNat, hv]
  · simp [BitVec.toNat_setWidth, orReduce_toNat, hv]

/-- The aligner where `a` has the larger or the same effective exponent (R84, R85). -/
theorem alignOperands_of_le {a b : Word}
    (h : (effectiveExponent (decodeFields b)).toNat ≤ (effectiveExponent (decodeFields a)).toNat) :
    let al := alignOperands (decodeFields a) (decodeFields b)
    let d := (effectiveExponent (decodeFields a)).toNat - (effectiveExponent (decodeFields b)).toNat
    al.commonExponent = effectiveExponent (decodeFields a) ∧
    al.sigA.toNat = (workingSignificand (decodeFields a)).toNat * 8 ∧
    al.sigB.toNat = oddQuotient ((workingSignificand (decodeFields b)).toNat * 8) d := by
  simp only [alignOperands, h, if_true, jamShiftRight_toNat, extendSignificand_toNat, and_self]

/-- The aligner where `b` has the larger effective exponent (R84). -/
theorem alignOperands_of_lt {a b : Word}
    (h : (effectiveExponent (decodeFields a)).toNat < (effectiveExponent (decodeFields b)).toNat) :
    let al := alignOperands (decodeFields a) (decodeFields b)
    let d := (effectiveExponent (decodeFields b)).toNat - (effectiveExponent (decodeFields a)).toNat
    al.commonExponent = effectiveExponent (decodeFields b) ∧
    al.sigA.toNat = oddQuotient ((workingSignificand (decodeFields a)).toNat * 8) d ∧
    al.sigB.toNat = (workingSignificand (decodeFields b)).toNat * 8 := by
  simp only [alignOperands, Nat.not_le.mpr h, if_false, jamShiftRight_toNat, extendSignificand_toNat, and_self]

/-! ### Magnitude engine -/

@[simp] theorem combinedOf_sign (s e m o) : (combinedOf s e m o).sign = s := rfl
@[simp] theorem combinedOf_exponent (s e m o) : (combinedOf s e m o).exponent = e := rfl
@[simp] theorem combinedOf_sum (s e m o) : (combinedOf s e m o).sum = m := rfl
@[simp] theorem combinedOf_op (s e m o) : (combinedOf s e m o).op = o := rfl
@[simp] theorem combinedOf_carry (s e m o) : (combinedOf s e m o).carry = m.extractLsb' 27 1 := rfl

theorem extractBit_eq_one_iff {w : Nat} (v : BitVec w) (i : Nat) :
    v.extractLsb' i 1 = 1#1 ↔ v.toNat / 2 ^ i % 2 = 1 := by
  rw [← BitVec.toNat_inj, BitVec.extractLsb'_toNat, Nat.shiftRight_eq_div_pow]
  simp

/-- Everything the magnitude engine can do (R89, R90, R91, R93). -/
theorem combineMagnitudes_cases (al : AlignedOperands) (sa sb : BitVec 1) :
    (∃ c, combineMagnitudes al sa sb = some c ∧ c.exponent = al.commonExponent ∧
      (c.carry = 1 ↔ 2 ^ 27 ≤ c.sum.toNat) ∧
      ((sa = sb ∧ c.op = .sameSign ∧ c.sign = sa ∧ c.sum.toNat = al.sigA.toNat + al.sigB.toNat) ∨
       (sa ≠ sb ∧ c.op = .diffSign ∧ al.sigB.toNat < al.sigA.toNat ∧ c.sign = sa ∧
        c.sum.toNat = al.sigA.toNat - al.sigB.toNat) ∨
       (sa ≠ sb ∧ c.op = .diffSign ∧ al.sigA.toNat < al.sigB.toNat ∧ c.sign = sb ∧
        c.sum.toNat = al.sigB.toNat - al.sigA.toNat))) ∨
    (combineMagnitudes al sa sb = none ∧ sa ≠ sb ∧ al.sigA = al.sigB) := by
  have hA := al.sigA.isLt
  have hB := al.sigB.isLt
  have hc (s : BitVec 28) : s.extractLsb' 27 1 = 1#1 ↔ 2 ^ 27 ≤ s.toNat := by
    rw [extractBit_eq_one_iff]
    have := s.isLt
    omega
  unfold combineMagnitudes
  by_cases hs : sa = sb
  · left
    refine ⟨_, if_pos hs, rfl, hc _, .inl ⟨hs, rfl, rfl, ?_⟩⟩
    simp only [combinedOf_sum, BitVec.toNat_add, BitVec.toNat_setWidth]
    omega
  · simp only [if_neg hs]
    by_cases h1 : al.sigB.toNat < al.sigA.toNat
    · left
      refine ⟨_, if_pos h1, rfl, hc _, .inr (.inl ⟨hs, rfl, h1, rfl, ?_⟩)⟩
      simp only [combinedOf_sum, BitVec.toNat_sub, BitVec.toNat_setWidth]
      omega
    · by_cases h2 : al.sigA.toNat < al.sigB.toNat
      · left
        refine ⟨_, by rw [if_neg h1, if_pos h2], rfl, hc _, .inr (.inr ⟨hs, rfl, h2, rfl, ?_⟩)⟩
        simp only [combinedOf_sum, BitVec.toNat_sub, BitVec.toNat_setWidth]
        omega
      · right
        exact ⟨by rw [if_neg h1, if_neg h2], hs, BitVec.eq_of_toNat_eq (by omega)⟩

/-! ### Normalizer -/

theorem leadingZerosFrom_spec (v : BitVec 27) (k : Nat) :
    leadingZerosFrom v k ≤ k ∧
    v.toNat % 2 ^ k < 2 ^ (k - leadingZerosFrom v k) ∧
    (leadingZerosFrom v k < k → 2 ^ (k - leadingZerosFrom v k - 1) ≤ v.toNat % 2 ^ k) := by
  induction k with
  | zero => simp [leadingZerosFrom, Nat.mod_one]
  | succ k ih =>
    have hmod : v.toNat % 2 ^ (k + 1) = 2 ^ k * (v.toNat / 2 ^ k % 2) + v.toNat % 2 ^ k := by
      rw [pow_succ, Nat.mod_mul]; omega
    have hbit : v.getLsbD k = true ↔ v.toNat / 2 ^ k % 2 = 1 := by
      rw [BitVec.getLsbD, Nat.testBit_eq_decide_div_mod_eq]; simp
    unfold leadingZerosFrom
    by_cases hb : v.getLsbD k = true
    · rw [if_pos hb]
      rw [hbit] at hb
      rw [hmod, hb]
      have : v.toNat % 2 ^ k < 2 ^ k := Nat.mod_lt _ (Nat.two_pow_pos k)
      refine ⟨by omega, ?_, fun _ => ?_⟩
      · rw [Nat.sub_zero, pow_succ]; omega
      · simp
    · rw [if_neg hb]
      rw [hbit] at hb
      have h0 : v.toNat / 2 ^ k % 2 = 0 := by omega
      rw [hmod, h0, Nat.mul_zero, Nat.zero_add, show k + 1 - (leadingZerosFrom v k + 1) = k - leadingZerosFrom v k by omega]
      exact ⟨by omega, ih.2.1, fun h => ih.2.2 (by omega)⟩

/-- The leading zeros bound the value from above and, where it is not 0, from below (00_scope.md section 5). -/
theorem lzc27_spec (v : BitVec 27) :
    lzc27 v ≤ 27 ∧ v.toNat < 2 ^ (27 - lzc27 v) ∧ (v ≠ 0 → lzc27 v ≤ 26 ∧ 2 ^ (26 - lzc27 v) ≤ v.toNat) := by
  have h := leadingZerosFrom_spec v 27
  rw [Nat.mod_eq_of_lt v.isLt] at h
  refine ⟨h.1, h.2.1, fun hv => ?_⟩
  have hlt : leadingZerosFrom v 27 < 27 := by
    rcases Nat.lt_or_ge (leadingZerosFrom v 27) 27 with hlt | hge
    · exact hlt
    · exfalso
      have h2 := h.2.1
      rw [show 27 - leadingZerosFrom v 27 = 0 by omega] at h2
      exact hv (BitVec.eq_of_toNat_eq (by simpa using h2))
  refine ⟨by unfold lzc27; omega, ?_⟩
  have := h.2.2 hlt
  rwa [show 27 - leadingZerosFrom v 27 - 1 = 26 - leadingZerosFrom v 27 by omega] at this

/-- On a number the leading zeros are those of `lzcNat`. -/
theorem lzc27_eq_lzcNat (v : BitVec 27) : lzc27 v = lzcNat v.toNat := by
  obtain ⟨h1, h2, h3⟩ := lzc27_spec v
  unfold lzcNat
  split_ifs with h0
  · by_contra hne
    have : v = 0 := BitVec.eq_of_toNat_eq (by simpa using h0)
    subst this
    exact hne (by decide)
  · obtain ⟨h4, h5⟩ := h3 (fun h => h0 (by rw [h]; rfl))
    have hlog : v.toNat.log2 = 26 - lzc27 v := by
      rw [Nat.log2_eq_iff h0]
      exact ⟨h5, by rwa [show 26 - lzc27 v + 1 = 27 - lzc27 v by omega]⟩
    omega

/-- The carry path of the normalizer (R94): the sum is rounded to odd by one bit. -/
theorem normalizeSum_of_carry {c : Combined} (h : c.carry = 1) :
    (c.exponent.toNat + 1 = 255 ∧ normalizeSum c = .overflow c.sign) ∨
    (c.exponent.toNat + 1 ≠ 255 ∧ ∃ n, normalizeSum c = .inRange n ∧ n.sign = c.sign ∧
      n.exponent = BitVec.ofNat 8 (c.exponent.toNat + 1) ∧ n.sum.toNat = oddQuotient c.sum.toNat 1) := by
  unfold normalizeSum checkExponent
  rw [if_pos h]
  by_cases he : c.exponent.toNat + 1 = 255
  · exact .inl ⟨he, if_pos he⟩
  · refine .inr ⟨he, _, if_neg he, rfl, rfl, ?_⟩
    have hs := c.sum.isLt
    change (c.sum.extractLsb' 2 26 ++ (c.sum.extractLsb' 1 1 ||| c.sum.extractLsb' 0 1) : BitVec (26 + 1)).toNat = _
    have hlow : (c.sum.extractLsb' 1 1 ||| c.sum.extractLsb' 0 1).toNat =
        if c.sum.toNat % 4 = 0 then 0 else 1 := by
      rw [BitVec.toNat_or, BitVec.extractLsb'_toNat, BitVec.extractLsb'_toNat, Nat.shiftRight_eq_div_pow,
        Nat.shiftRight_eq_div_pow]
      have hcases : c.sum.toNat % 4 = 0 ∨ c.sum.toNat % 4 = 1 ∨ c.sum.toNat % 4 = 2 ∨ c.sum.toNat % 4 = 3 := by omega
      have h1 : c.sum.toNat / 2 ^ 1 % 2 ^ 1 = c.sum.toNat % 4 / 2 := by omega
      have h0 : c.sum.toNat / 2 ^ 0 % 2 ^ 1 = c.sum.toNat % 4 % 2 := by omega
      rw [h1, h0]
      rcases hcases with h | h | h | h <;> rw [h] <;> rfl
    rw [BitVec.toNat_append, ← Nat.shiftLeft_add_eq_or_of_lt (BitVec.isLt (c.sum.extractLsb' 1 1 ||| c.sum.extractLsb' 0 1)), hlow,
      BitVec.extractLsb'_toNat, Nat.shiftRight_eq_div_pow, Nat.shiftLeft_eq]
    unfold oddQuotient
    split_ifs <;> omega

/-- The left-shift path of the normalizer (R95): no set bit leaves the 27-bit field. -/
theorem normalizeSum_of_no_carry {c : Combined} (h : c.carry ≠ 1) (hs : c.sum.toNat < 2 ^ 27) :
    ∃ n, normalizeSum c = .inRange n ∧ n.sign = c.sign ∧
      n.exponent.toNat = c.exponent.toNat - leftShiftCount c ∧
      n.sum.toNat = c.sum.toNat * 2 ^ leftShiftCount c ∧ c.sum.toNat * 2 ^ leftShiftCount c < 2 ^ 27 := by
  unfold normalizeSum
  rw [if_neg h]
  have hw : (c.sum.setWidth 27).toNat = c.sum.toNat := by
    rw [BitVec.toNat_setWidth, Nat.mod_eq_of_lt hs]
  obtain ⟨hz1, hz2, -⟩ := lzc27_spec (c.sum.setWidth 27)
  rw [hw] at hz2
  have hn : leftShiftCount c ≤ lzc27 (c.sum.setWidth 27) := Nat.min_le_left _ _
  have hlt : c.sum.toNat * 2 ^ leftShiftCount c < 2 ^ 27 := by
    calc c.sum.toNat * 2 ^ leftShiftCount c
        < 2 ^ (27 - lzc27 (c.sum.setWidth 27)) * 2 ^ leftShiftCount c :=
          Nat.mul_lt_mul_of_pos_right hz2 (Nat.two_pow_pos _)
      _ ≤ 2 ^ 27 := by
          rw [← pow_add]
          exact Nat.pow_le_pow_right (by norm_num) (by omega)
  refine ⟨_, rfl, rfl, ?_, ?_, hlt⟩
  · have := c.exponent.isLt
    simp only [BitVec.toNat_ofNat]
    omega
  · simp only [BitVec.toNat_shiftLeft, hw, Nat.shiftLeft_eq]
    exact Nat.mod_eq_of_lt hlt

/-! ### Rounder and encoder -/

/-- The increment of R100 rounds the 27-bit sum to nearest even at the significand (R101). -/
theorem incrementedSignificand_toNat (n : BitVec 27) :
    (incrementedSignificand n).toNat = roundedQuotient n.toNat 3 := by
  have hn := n.isLt
  have hbit (i : Nat) : (n.extractLsb' i 1).toNat = n.toNat / 2 ^ i % 2 := by
    rw [BitVec.extractLsb'_toNat, Nat.shiftRight_eq_div_pow, pow_one]
  have hinc : (roundIncrement n).toNat =
      if n.toNat % 8 < 4 then 0 else if 4 < n.toNat % 8 then 1 else n.toNat / 8 % 2 := by
    unfold roundIncrement guardBit roundBit stickyBit lastRetainedBit
    simp only [BitVec.toNat_and, BitVec.toNat_or, hbit]
    have h8 : n.toNat / 8 % 2 = 0 ∨ n.toNat / 8 % 2 = 1 := by omega
    have hr : n.toNat % 8 < 8 := by omega
    have e2 : n.toNat / 2 ^ 2 % 2 = n.toNat % 8 / 4 := by omega
    have e1 : n.toNat / 2 ^ 1 % 2 = n.toNat % 8 / 2 % 2 := by omega
    have e0 : n.toNat / 2 ^ 0 % 2 = n.toNat % 8 % 2 := by omega
    have e3 : n.toNat / 2 ^ 3 % 2 = n.toNat / 8 % 2 := by omega
    rw [e0, e1, e2, e3]
    generalize n.toNat % 8 = r at *
    rcases h8 with h8 | h8 <;> rw [h8] <;> interval_cases r <;> rfl
  unfold incrementedSignificand
  rw [BitVec.toNat_add, BitVec.toNat_setWidth, BitVec.toNat_setWidth, hinc, BitVec.extractLsb'_toNat,
    Nat.shiftRight_eq_div_pow]
  simp only [roundedQuotient]
  split_ifs <;> omega

theorem incrementedSignificand_le (n : BitVec 27) : (incrementedSignificand n).toNat ≤ 2 ^ 24 := by
  have hn := n.isLt
  rw [incrementedSignificand_toNat]
  simp only [roundedQuotient]
  split_ifs <;> omega

/-- Rounder and encoder by numbers: the result is the exponent and the rounded significand added in one number, or the
infinity where that reaches it (R102 to R104). -/
theorem roundAndEncode (n : Normalized) (h1 : 1 ≤ n.exponent.toNat) (h254 : n.exponent.toNat ≤ 254)
    (hsub : n.sum.toNat < 2 ^ 26 → n.exponent.toNat = 1) :
    let p := (n.exponent.toNat - 1) * 2 ^ 23 + roundedQuotient n.sum.toNat 3
    (p = 0x7F800000 ∧ roundSum n = .overflow n.sign) ∨
    (p < 0x7F800000 ∧ ∃ r, roundSum n = .inRange r ∧ r.sign = n.sign ∧
      1 ≤ r.exponent.toNat ∧ r.exponent.toNat ≤ 254 ∧
      (r.significand.toNat < 2 ^ 23 → r.exponent.toNat = 1) ∧
      (encodeResult r).toNat = n.sign.toNat * 2 ^ 31 + p) := by
  have hm := incrementedSignificand_toNat n.sum
  have hle := incrementedSignificand_le n.sum
  have hge : 2 ^ 26 ≤ n.sum.toNat → 2 ^ 23 ≤ (incrementedSignificand n.sum).toNat := by
    intro h
    rw [hm]
    simp only [roundedQuotient]
    split_ifs <;> omega
  have henc (r : Rounded) : (encodeResult r).toNat =
      r.sign.toNat * 2 ^ 31 + (if 2 ^ 23 ≤ r.significand.toNat then r.exponent.toNat else 0) * 2 ^ 23 +
        r.significand.toNat % 2 ^ 23 := by
    have hlt := r.significand.isLt
    have hbit : r.significand.extractLsb' 23 1 = 1#1 ↔ 2 ^ 23 ≤ r.significand.toNat := by
      rw [extractBit_eq_one_iff]; omega
    unfold encodeResult
    rw [packFields_toNat, BitVec.extractLsb'_toNat, Nat.shiftRight_eq_div_pow, pow_zero, Nat.div_one]
    by_cases hb : 2 ^ 23 ≤ r.significand.toNat
    · rw [if_pos (hbit.mpr hb), if_pos hb]
    · rw [if_neg (fun h => hb (hbit.mp h)), if_neg hb]; rfl
  rw [← hm]
  intro p
  unfold roundSum checkExponent
  by_cases hcar : (incrementedSignificand n.sum).extractLsb' 24 1 = 1#1
  · have hM : (incrementedSignificand n.sum).toNat = 2 ^ 24 := by
      rw [extractBit_eq_one_iff] at hcar; omega
    simp only [hcar, if_true]
    by_cases h255 : n.exponent.toNat + 1 = 255
    · exact .inl ⟨by simp only [p, hM]; omega, if_pos h255⟩
    · refine .inr ⟨by simp only [p, hM]; omega, _, if_neg h255, rfl, ?_⟩
      have hsig : ((incrementedSignificand n.sum).extractLsb' 1 24).toNat = 2 ^ 23 := by
        rw [BitVec.extractLsb'_toNat, Nat.shiftRight_eq_div_pow, hM]; rfl
      have hexp : (BitVec.ofNat 8 (n.exponent.toNat + 1)).toNat = n.exponent.toNat + 1 := by
        rw [BitVec.toNat_ofNat]; omega
      simp only [henc, hsig, hexp]
      refine ⟨by omega, by omega, fun h => absurd h (by omega), ?_⟩
      simp only [p, hM]
      rw [if_pos (le_refl _)]
      omega
  · have hM : (incrementedSignificand n.sum).toNat < 2 ^ 24 := by
      rw [extractBit_eq_one_iff] at hcar; omega
    rw [if_neg hcar]
    refine .inr ⟨by simp only [p]; omega, _, rfl, rfl, h1, h254, ?_⟩
    have hsig : ((incrementedSignificand n.sum).extractLsb' 0 24).toNat = (incrementedSignificand n.sum).toNat := by
      rw [BitVec.extractLsb'_toNat, Nat.shiftRight_eq_div_pow]; omega
    simp only [henc, hsig]
    constructor
    · intro h
      exact hsub (by by_contra hc; have := hge (by omega); omega)
    · by_cases hb : 2 ^ 23 ≤ (incrementedSignificand n.sum).toNat
      · rw [if_pos hb]; simp only [p]; omega
      · rw [if_neg hb]
        have h1' := hsub (by by_contra hc; exact hb (hge (by omega)))
        simp only [p, h1']
        omega

end Sys2Proof.Machine
end

