-- ==== Sys2Proof/Laws/GeneralPath.lean ====
section
/-! SUPPORT. What the aligner and the magnitude engine compute together: the exact sum of the operands, in units of
`2^-149`, and the 28-bit sum as that number rounded to odd. -/

namespace Sys2Proof.Machine

/-- The sign of an exact integer sum as a sign field. -/
def signOfSum (v : Int) : BitVec 1 := if v < 0 then 1 else 0

theorem sign_cases (s : BitVec 1) : s = 0 ∨ s = 1 := by
  have := s.isLt
  rcases (show s.toNat = 0 ∨ s.toNat = 1 by omega) with h | h
  · exact .inl (BitVec.eq_of_toNat_eq h)
  · exact .inr (BitVec.eq_of_toNat_eq h)

theorem scaledValue_eq (x : Word) :
    scaledValue x = (if signField x = 1 then -1 else 1) * (scaledMagnitude x : Int) := by
  unfold scaledValue; split_ifs <;> ring

theorem scaledMagnitude_pos {x : Word} (h : isFiniteNonzero x = true) : 0 < scaledMagnitude x :=
  Nat.mul_pos (workingSignificand_pos x h) (Nat.two_pow_pos _)

/-- The sum of two integers from their magnitudes: the sign is that of the larger, as in R89 to R91. -/
theorem signed_add_cases (sa sb : BitVec 1) (p q : Nat) (hp : 0 < p) (hq : 0 < q) :
    let v : Int := (if sa = 1 then -1 else 1) * (p : Int) + (if sb = 1 then -1 else 1) * (q : Int)
    (sa = sb → v.natAbs = p + q ∧ signOfSum v = sa) ∧
    (sa ≠ sb → q < p → v.natAbs = p - q ∧ signOfSum v = sa) ∧
    (sa ≠ sb → p < q → v.natAbs = q - p ∧ signOfSum v = sb) ∧
    (sa ≠ sb → p = q → v = 0) := by
  intro v
  have h01 : (0 : BitVec 1) ≠ 1 := by decide
  have hneg (n : Int) (h : n < 0) : signOfSum n = 1 := if_pos h
  have hpos (n : Int) (h : ¬ n < 0) : signOfSum n = 0 := if_neg h
  rcases sign_cases sa with rfl | rfl <;> rcases sign_cases sb with rfl | rfl <;>
    simp only [ne_eq, not_true, h01, h01.symm, not_false_iff, false_implies, true_implies, and_true, true_and]
  · have hv : v = p + q := by simp [v]
    exact ⟨by omega, hpos _ (by omega)⟩
  · have hv : v = p - q := by simp [v]; ring
    exact ⟨fun h => ⟨by omega, hpos _ (by omega)⟩, fun h => ⟨by omega, hneg _ (by omega)⟩, fun h => by omega⟩
  · have hv : v = q - p := by simp [v]; ring
    exact ⟨fun h => ⟨by omega, hneg _ (by omega)⟩, fun h => ⟨by omega, hpos _ (by omega)⟩, fun h => by omega⟩
  · have hv : v = -p - q := by simp [v]; ring
    exact ⟨by omega, hneg _ (by omega)⟩

/-- Where the magnitude engine hands on a sum: the exact sum `v` of the operands is not 0, `c` has its sign, and with `w`
the magnitude in units of the smaller operand's last bit, `c.sum` is `8 * w` rounded to odd by the exponent difference
`d` (R84, R89, R90). The bounds are those of R97. -/
structure IsEngineOutput (v : Int) (c : Combined) (w d k : Nat) : Prop where
  magnitude : v.natAbs = w * 2 ^ k
  positive : 0 < w
  sign : c.sign = signOfSum v
  exponent : c.exponent.toNat = k + 1 + d
  exponent_le : c.exponent.toNat ≤ 254
  sum : c.sum.toNat = oddQuotient (8 * w) d
  carry : c.carry = 1 ↔ 2 ^ 27 ≤ c.sum.toNat
  wide : 2 ≤ d → 2 ^ 22 * 2 ^ d ≤ w
  same : c.op = .sameSign → (1 ≤ d ∨ 1 ≤ k) → 2 ^ 23 * 2 ^ d ≤ w
  diff : c.op = .diffSign → c.sum.toNat < 2 ^ 27

/-- The magnitude engine on two significands, the second of them shifted: the common part of both alignments. -/
theorem engine_arith {m1 m2 d : Nat} (h2' : m2 < 2 ^ 24)
    (hd : 1 ≤ d → 2 ^ 23 ≤ m1) :
    m1 * 8 + oddQuotient (m2 * 8) d = oddQuotient (8 * (m1 * 2 ^ d + m2)) d ∧
    (oddQuotient (m2 * 8) d < m1 * 8 ↔ m2 < m1 * 2 ^ d) ∧
    (m1 * 8 < oddQuotient (m2 * 8) d ↔ m1 * 2 ^ d < m2) ∧
    (m1 * 2 ^ d < m2 → d = 0) ∧
    (m2 < m1 * 2 ^ d → m1 * 8 - oddQuotient (m2 * 8) d = oddQuotient (8 * (m1 * 2 ^ d - m2)) d) ∧
    (2 ≤ d → 2 ^ 22 * 2 ^ d ≤ m1 * 2 ^ d - m2) ∧
    (1 ≤ d → 2 ^ 23 * 2 ^ d ≤ m1 * 2 ^ d + m2) := by
  have hp : 0 < 2 ^ d := Nat.two_pow_pos d
  have hadd : m1 * 8 + oddQuotient (m2 * 8) d = oddQuotient (8 * (m1 * 2 ^ d + m2)) d := by
    have := oddQuotient_add_even (m2 * 8) d (m1 * 4)
    rw [show 8 * (m1 * 2 ^ d + m2) = 2 * (m1 * 4) * 2 ^ d + m2 * 8 by ring, this]
    omega
  have hle : m1 * 8 ≤ oddQuotient (m2 * 8) d ↔ m1 * 2 ^ d ≤ m2 := by
    have := even_le_oddQuotient_iff (n := m2 * 8) (d := d) (m := m1 * 4)
    rw [show 2 * (m1 * 4) = m1 * 8 by ring] at this
    rw [this, show m1 * 8 * 2 ^ d = 8 * (m1 * 2 ^ d) by ring]
    omega
  have hlarge : 1 ≤ d → m2 < m1 * 2 ^ d := by
    intro h
    have : 2 ^ 23 * 2 ^ 1 ≤ m1 * 2 ^ d := Nat.mul_le_mul (hd h) (Nat.pow_le_pow_right (by norm_num) h)
    omega
  have hzero : ¬ 1 ≤ d → oddQuotient (m2 * 8) d = m2 * 8 ∧ m1 * 2 ^ d = m1 := by
    intro h
    obtain rfl : d = 0 := by omega
    simp [oddQuotient_zero]
  refine ⟨hadd, ?_, ?_, ?_, ?_, ?_, ?_⟩
  · omega
  · by_cases h : 1 ≤ d
    · have := hlarge h; omega
    · have := hzero h; omega
  · intro h
    by_contra hc
    have := hlarge (by omega)
    omega
  · intro h
    have := oddQuotient_even_sub (n := m2 * 8) (d := d) (m := m1 * 4) (by
      rw [show 2 * (m1 * 4) * 2 ^ d = 8 * (m1 * 2 ^ d) by ring]; omega)
    rw [show 8 * (m1 * 2 ^ d - m2) = 2 * (m1 * 4) * 2 ^ d - m2 * 8 by
      rw [Nat.mul_sub]; congr 1 <;> ring, this]
    omega
  · intro h
    have h23 := hd (by omega)
    have : 2 ^ 23 * 2 ^ d ≤ m1 * 2 ^ d := Nat.mul_le_mul_right _ h23
    have h4 : 2 ^ 2 ≤ 2 ^ d := Nat.pow_le_pow_right (by norm_num) h
    omega
  · intro h
    have : 2 ^ 23 * 2 ^ d ≤ m1 * 2 ^ d := Nat.mul_le_mul_right _ (hd h)
    omega

theorem workingSignificand_lt (x : Word) : (workingSignificand (decodeFields x)).toNat < 2 ^ 24 :=
  (workingSignificand (decodeFields x)).isLt

/-- `engine_cases` where `a` has the larger or the same effective exponent. -/
theorem engine_cases_of_le {a b : Word} (ha : isFiniteNonzero a = true) (hb : isFiniteNonzero b = true)
    (hle : (effectiveExponent (decodeFields b)).toNat ≤ (effectiveExponent (decodeFields a)).toNat) :
    let v := scaledValue a + scaledValue b
    let r := combineMagnitudes (alignOperands (decodeFields a) (decodeFields b)) (signField a) (signField b)
    let d := ((effectiveExponent (decodeFields a)).toNat - (effectiveExponent (decodeFields b)).toNat : ℤ).natAbs
    (r = none ∧ v = 0) ∨ ∃ c w k, r = some c ∧ v ≠ 0 ∧ IsEngineOutput v c w d k := by
  intro v r d
  have hfa : isFinite a = true := by
    rw [isFiniteNonzero_iff_fields] at ha; rw [isFinite_iff]; exact ha.1
  have hfb : isFinite b = true := by
    rw [isFiniteNonzero_iff_fields] at hb; rw [isFinite_iff]; exact hb.1
  have hxa1 := effectiveExponent_pos a
  have hxb1 := effectiveExponent_pos b
  have hxa2 := effectiveExponent_le a hfa
  have hxb2 := effectiveExponent_le b hfb
  have hma1 := workingSignificand_pos a ha
  have hmb1 := workingSignificand_pos b hb
  have hma2 := workingSignificand_lt a
  have hmb2 := workingSignificand_lt b
  have hmaN := workingSignificand_ge_of_exponent a
  have hmbN := workingSignificand_ge_of_exponent b
  have hv := signed_add_cases (signField a) (signField b) (scaledMagnitude a) (scaledMagnitude b)
    (scaledMagnitude_pos ha) (scaledMagnitude_pos hb)
  simp only [← scaledValue_eq] at hv
  change (signField a = signField b → v.natAbs = _ ∧ _) ∧ _ at hv
  have hcomb := combineMagnitudes_cases (alignOperands (decodeFields a) (decodeFields b)) (signField a) (signField b)
  change (∃ c, r = some c ∧ _) ∨ (r = none ∧ _) at hcomb
  obtain ⟨hvs, hvg, hvl, hve⟩ := hv
  have hpa := scaledMagnitude_pos ha
  have hpb := scaledMagnitude_pos hb
  have hnz : v.natAbs ≠ 0 → v ≠ 0 := fun h h0 => h (by rw [h0]; rfl)
  obtain ⟨hE, hA, hB⟩ := alignOperands_of_le hle
  obtain ⟨k, hk⟩ : ∃ k, (effectiveExponent (decodeFields b)).toNat = k + 1 := ⟨_, (Nat.sub_add_cancel hxb1).symm⟩
  have hd : d = (effectiveExponent (decodeFields a)).toNat - (effectiveExponent (decodeFields b)).toNat := by
    simp only [d]; omega
  have hxa : (effectiveExponent (decodeFields a)).toNat = k + 1 + d := by omega
  have hmagA : scaledMagnitude a = (workingSignificand (decodeFields a)).toNat * 2 ^ d * 2 ^ k := by
    unfold scaledMagnitude
    rw [hxa, show k + 1 + d - 1 = d + k by omega, pow_add, Nat.mul_assoc]
  have hmagB : scaledMagnitude b = (workingSignificand (decodeFields b)).toNat * 2 ^ k := by
    unfold scaledMagnitude
    rw [hk, Nat.add_sub_cancel]
  rw [← hd] at hB
  obtain ⟨e1, e2, e3, e4, e5, e6, e7⟩ := engine_arith (d := d) hmb2 (fun h => hmaN (by omega))
  generalize (workingSignificand (decodeFields a)).toNat = ma at *
  generalize (workingSignificand (decodeFields b)).toNat = mb at *
  have hkp : 0 < 2 ^ k := Nat.two_pow_pos k
  have hexp : (alignOperands (decodeFields a) (decodeFields b)).commonExponent.toNat = k + 1 + d := by rw [hE, hxa]
  rw [hmagA, hmagB] at hvs hvg hvl hve
  have hlt : mb * 2 ^ k < ma * 2 ^ d * 2 ^ k ↔ mb < ma * 2 ^ d := Nat.mul_lt_mul_right hkp
  have hgt : ma * 2 ^ d * 2 ^ k < mb * 2 ^ k ↔ ma * 2 ^ d < mb := Nat.mul_lt_mul_right hkp
  rcases hcomb with ⟨c, hc, hce, hcc, hcase⟩ | ⟨hn, hs, hAB⟩
  · right
    rcases hcase with ⟨hs, hop, hsg, hsum⟩ | ⟨hs, hop, hcmp, hsg, hsum⟩ | ⟨hs, hop, hcmp, hsg, hsum⟩
    · obtain ⟨h1, h2⟩ := hvs hs
      refine ⟨c, ma * 2 ^ d + mb, k, hc, hnz (by rw [h1]; nlinarith), ?_⟩
      exact {
        magnitude := by rw [h1]; ring
        positive := by omega
        sign := by rw [hsg, h2]
        exponent := by rw [hce, hexp]
        exponent_le := by rw [hce, hexp]; omega
        sum := by rw [hsum, hA, hB, e1]
        carry := hcc
        wide := fun h => by have := e6 h; omega
        same := fun _ h => by
          rcases h with h | h
          · exact e7 h
          · have hbN := hmbN (by omega)
            have haN := hmaN (by omega)
            have : 2 ^ 23 * 2 ^ d ≤ ma * 2 ^ d := Nat.mul_le_mul_right _ haN
            omega
        diff := fun h => by rw [hop] at h; exact absurd h (by decide) }
    · rw [hA, hB] at hcmp hsum
      have hcmp' := e2.mp hcmp
      obtain ⟨h1, h2⟩ := hvg hs (hlt.mpr hcmp')
      refine ⟨c, ma * 2 ^ d - mb, k, hc, hnz (by rw [h1]; have := hlt.mpr hcmp'; omega), ?_⟩
      exact {
        magnitude := by rw [h1, Nat.sub_mul]
        positive := by omega
        sign := by rw [hsg, h2]
        exponent := by rw [hce, hexp]
        exponent_le := by rw [hce, hexp]; omega
        sum := by rw [hsum, e5 hcmp']
        carry := hcc
        wide := e6
        same := fun h => by rw [hop] at h; exact absurd h (by decide)
        diff := fun _ => by rw [hsum]; omega }
    · rw [hA, hB] at hcmp hsum
      have hcmp' := e3.mp hcmp
      have hd0 : d = 0 := e4 hcmp'
      obtain ⟨h1, h2⟩ := hvl hs (hgt.mpr hcmp')
      refine ⟨c, mb - ma * 2 ^ d, k, hc, hnz (by rw [h1]; have := hgt.mpr hcmp'; omega), ?_⟩
      exact {
        magnitude := by rw [h1, Nat.sub_mul]
        positive := by omega
        sign := by rw [hsg, h2]
        exponent := by rw [hce, hexp]
        exponent_le := by rw [hce, hexp]; omega
        sum := by rw [hsum, hd0, oddQuotient_zero, oddQuotient_zero]; omega
        carry := hcc
        wide := fun h => by omega
        same := fun h => by rw [hop] at h; exact absurd h (by decide)
        diff := fun _ => by rw [hsum, hd0, oddQuotient_zero]; omega }
  · left
    refine ⟨hn, hve hs ?_⟩
    have : ma * 8 = oddQuotient (mb * 8) d := by rw [← hA, ← hB, hAB]
    have h1 : ma * 2 ^ d = mb := by omega
    rw [h1]

/-- The aligner does not depend on which operand is called `a`, but for the names of its outputs. -/
theorem alignOperands_swap (a b : Word) :
    (alignOperands (decodeFields b) (decodeFields a)).commonExponent =
      (alignOperands (decodeFields a) (decodeFields b)).commonExponent ∧
    (alignOperands (decodeFields b) (decodeFields a)).sigA = (alignOperands (decodeFields a) (decodeFields b)).sigB ∧
    (alignOperands (decodeFields b) (decodeFields a)).sigB = (alignOperands (decodeFields a) (decodeFields b)).sigA := by
  rcases lt_trichotomy (effectiveExponent (decodeFields a)).toNat (effectiveExponent (decodeFields b)).toNat with h | h | h
  · simp [alignOperands, h.le, Nat.not_le.mpr h]
  · simp [alignOperands, BitVec.eq_of_toNat_eq h, jamShiftRight]
  · simp [alignOperands, h.le, Nat.not_le.mpr h]

/-- The magnitude engine does not depend on which operand is called `a`. -/
theorem combineMagnitudes_swap (a b : Word) (sa sb : BitVec 1) :
    combineMagnitudes (alignOperands (decodeFields b) (decodeFields a)) sb sa =
      combineMagnitudes (alignOperands (decodeFields a) (decodeFields b)) sa sb := by
  obtain ⟨h1, h2, h3⟩ := alignOperands_swap a b
  unfold combineMagnitudes
  simp only [h1, h2, h3]
  by_cases hs : sa = sb
  · subst hs
    simp only [if_true, BitVec.add_comm]
  · rw [if_neg hs, if_neg (fun h => hs h.symm)]
    split_ifs <;> first | rfl | omega

/-- The whole of the aligner and the magnitude engine on finite nonzero operands: either an exact cancellation (R91), or a
sum that `IsEngineOutput` describes. -/
theorem engine_cases {a b : Word} (ha : isFiniteNonzero a = true) (hb : isFiniteNonzero b = true) :
    let v := scaledValue a + scaledValue b
    let r := combineMagnitudes (alignOperands (decodeFields a) (decodeFields b)) (signField a) (signField b)
    let d := ((effectiveExponent (decodeFields a)).toNat - (effectiveExponent (decodeFields b)).toNat : ℤ).natAbs
    (r = none ∧ v = 0) ∨ ∃ c w k, r = some c ∧ v ≠ 0 ∧ IsEngineOutput v c w d k := by
  rcases Nat.le_total (effectiveExponent (decodeFields b)).toNat (effectiveExponent (decodeFields a)).toNat with hle | hle
  · exact engine_cases_of_le ha hb hle
  · have h := engine_cases_of_le hb ha hle
    simp only [combineMagnitudes_swap a b] at h
    rw [Int.add_comm, ← Int.natAbs_neg, Int.neg_sub] at h
    exact h

end Sys2Proof.Machine
end

