-- ==== Sys2Proof/Laws/ExactSum.lean ====
section
/-! SUPPORT. The normalizer by the exact sum: the exponent it leaves and the significand that the rounder makes of its sum
add up to the pattern of the exact sum rounded once. -/

namespace Sys2Proof.Machine

/-- `roundedPattern` of a number whose kept part starts at bit `k`. -/
theorem roundedPattern_of_range {v k : Nat} (h1 : 2 ^ (k + 23) ≤ v) (h2 : v < 2 ^ (k + 24)) :
    roundedPattern v = k * 2 ^ 23 + roundedQuotient v k := by
  have h0 : v ≠ 0 := by have := Nat.two_pow_pos (k + 23); omega
  have hl : v.log2 = k + 23 := (Nat.log2_eq_iff h0).mpr ⟨h1, h2⟩
  simp [roundedPattern, hl]

/-- A number of at most 24 bits is its own rounded pattern. -/
theorem roundedPattern_of_small {v : Nat} (h2 : v < 2 ^ 24) : roundedPattern v = v := by
  have : v.log2 - 23 = 0 := by
    by_cases h0 : v = 0
    · simp [h0]
    · have := (Nat.log2_lt h0).mpr h2; omega
  simp [roundedPattern, this]

/-- The normalizer, by the exact sum: the exponent and the rounded significand add up to the rounded pattern of it. -/
theorem normalize_exact {v : Int} {c : Combined} {w d k : Nat} (h : IsEngineOutput v c w d k) :
    (c.exponent.toNat = 254 ∧ c.carry = 1 ∧ normalizeSum c = .overflow c.sign ∧
      0x7F800000 ≤ roundedPattern v.natAbs) ∨
    ∃ n, normalizeSum c = .inRange n ∧ n.sign = c.sign ∧ 1 ≤ n.exponent.toNat ∧ n.exponent.toNat ≤ 254 ∧
      (n.sum.toNat < 2 ^ 26 → n.exponent.toNat = 1 ∧ n.sum.toNat = 8 * v.natAbs) ∧
      (n.exponent.toNat - 1) * 2 ^ 23 + roundedQuotient n.sum.toNat 3 = roundedPattern v.natAbs ∧ n.sum.toNat ≠ 0 := by
  obtain ⟨hmag, hpos, hsign, hexp, hexp254, hsum, hcar, hwide, hsame, hdiff⟩ := h
  have hd8 (t : Nat) : 8 * t = 2 * (4 * t) := by ring
  have hpd : 0 < 2 ^ d := Nat.two_pow_pos d
  have hsumlt := c.sum.isLt
  by_cases hc : c.carry = 1
  · have h27 := hcar.mp hc
    have hlo : 2 ^ 24 * 2 ^ d ≤ w := by
      have := (even_le_oddQuotient_iff (n := 8 * w) (d := d) (m := 2 ^ 26)).mp (by omega)
      omega
    have hhi : w < 2 ^ 25 * 2 ^ d := by
      by_contra hcon
      have := (even_le_oddQuotient_iff (n := 8 * w) (d := d) (m := 2 ^ 27)).mpr (by omega)
      omega
    have hk2 : 0 < 2 ^ k := Nat.two_pow_pos k
    have hv1 : 2 ^ (d + 1 + k + 23) ≤ v.natAbs := by
      rw [hmag, show d + 1 + k + 23 = 24 + d + k by ring, pow_add, pow_add]
      exact Nat.mul_le_mul_right _ hlo
    have hv2 : v.natAbs < 2 ^ (d + 1 + k + 24) := by
      rw [hmag, show d + 1 + k + 24 = 25 + d + k by ring, pow_add, pow_add]
      exact Nat.mul_lt_mul_of_pos_right hhi hk2
    have hrp := roundedPattern_of_range hv1 hv2
    rcases normalizeSum_of_carry hc with ⟨he, hov⟩ | ⟨he, n, hn, hns, hne, hnsum⟩
    · left
      refine ⟨by omega, hc, hov, ?_⟩
      have hge : 2 ^ 23 ≤ roundedQuotient v.natAbs (d + 1 + k) := by
        have hp : 0 < 2 ^ (d + 1 + k) := Nat.two_pow_pos _
        have : 2 ^ 23 ≤ v.natAbs / 2 ^ (d + 1 + k) := by
          rw [Nat.le_div_iff_mul_le hp, ← pow_add, Nat.add_comm]; exact hv1
        simp only [roundedQuotient]
        split_ifs <;> omega
      have : d + 1 + k = 254 := by omega
      rw [hrp]
      omega
    · right
      refine ⟨n, hn, hns, ?_⟩
      have hnexp : n.exponent.toNat = c.exponent.toNat + 1 := by
        rw [hne, BitVec.toNat_ofNat]; omega
      have hnlo : 2 ^ 26 ≤ n.sum.toNat := by
        rw [hnsum]
        have := (even_le_oddQuotient_iff (n := c.sum.toNat) (d := 1) (m := 2 ^ 25)).mpr (by omega)
        omega
      refine ⟨by omega, by omega, fun h => by omega, ?_, by omega⟩
      rw [hrp, hnexp, hexp, hnsum, hsum, oddQuotient_oddQuotient_one, roundedQuotient_oddQuotient _ _ _ (by omega),
        show 8 * w = w * 2 ^ 3 by ring, show 3 + (d + 1) = d + 1 + 3 by ring, roundedQuotient_scale, hmag,
        roundedQuotient_scale]
      congr 2; omega
  · have hlt : c.sum.toNat < 2 ^ 27 := by
      by_contra hcon; exact hc (hcar.mpr (by omega))
    right
    obtain ⟨n, hn, hns, hne, hnsum, hn27⟩ := normalizeSum_of_no_carry hc hlt
    refine ⟨n, hn, hns, ?_⟩
    have hw27 : (c.sum.setWidth 27).toNat = c.sum.toNat := by
      rw [BitVec.toNat_setWidth, Nat.mod_eq_of_lt hlt]
    obtain ⟨hz1, hz2, hz3⟩ := lzc27_spec (c.sum.setWidth 27)
    rw [hw27] at hz2 hz3
    have hs0 : c.sum.toNat ≠ 0 := by
      intro h0
      rw [hsum] at h0
      by_cases hm : 8 * w % 2 ^ d = 0
      · rw [oddQuotient_of_dvd hm] at h0
        have := Nat.div_add_mod (8 * w) (2 ^ d)
        rw [h0, hm] at this
        omega
      · rw [oddQuotient_of_not_dvd hm] at h0; omega
    obtain ⟨hz4, hz5⟩ := hz3 (fun h0 => hs0 (by rw [← hw27, h0]; rfl))
    set z := lzc27 (c.sum.setWidth 27) with hz
    have hj : leftShiftCount c = min z (c.exponent.toNat - 1) := rfl
    generalize leftShiftCount c = j at *
    have hexact : d ≤ 3 → c.sum.toNat * 2 ^ d = 8 * w := by
      intro h3
      rw [hsum, oddQuotient_of_dvd]
      · apply Nat.div_mul_cancel
        exact Dvd.dvd.mul_right (by rw [show 8 = 2 ^ 3 by rfl]; exact Nat.pow_dvd_pow 2 h3) _
      · apply Nat.mod_eq_zero_of_dvd
        exact Dvd.dvd.mul_right (by rw [show 8 = 2 ^ 3 by rfl]; exact Nat.pow_dvd_pow 2 h3) _
    have hjd : 2 ≤ d → j ≤ 1 := by
      intro h2
      have := hwide h2
      have h25 := (even_le_oddQuotient_iff (n := 8 * w) (d := d) (m := 2 ^ 24)).mpr (by omega)
      rw [← hsum] at h25
      have : 2 ^ 25 < 2 ^ (27 - z) := by omega
      have := (Nat.pow_lt_pow_iff_right (a := 2) (by norm_num)).mp this
      omega
    -- the rounded significand, and the sum as a number
    have hround : roundedQuotient n.sum.toNat 3 = roundedQuotient (w * 2 ^ j) d := by
      rw [hnsum]
      by_cases h2 : 2 ≤ d
      · have hj1 := hjd h2
        have e1 : roundedQuotient (c.sum.toNat * 2 ^ j) 3 = roundedQuotient c.sum.toNat (3 - j) := by
          rw [show 3 = (3 - j) + j by omega, roundedQuotient_scale, Nat.add_sub_cancel]
        rw [e1, hsum, roundedQuotient_oddQuotient _ _ _ (by omega)]
        have e2 := roundedQuotient_scale (8 * w) (3 - j + d) j
        rw [← e2, show 3 - j + d + j = d + 3 by omega, show 8 * w * 2 ^ j = w * 2 ^ j * 2 ^ 3 by ring,
          roundedQuotient_scale]
      · have e3 := hexact (by omega)
        rw [← roundedQuotient_scale (c.sum.toNat * 2 ^ j) 3 d, show c.sum.toNat * 2 ^ j * 2 ^ d = c.sum.toNat * 2 ^ d * 2 ^ j by ring,
          e3, show 8 * w * 2 ^ j = w * 2 ^ j * 2 ^ 3 by ring, show 3 + d = d + 3 by ring, roundedQuotient_scale]
    by_cases hn26 : n.sum.toNat < 2 ^ 26
    · -- the cap stopped the shift
      have hjE : j = c.exponent.toNat - 1 := by
        rcases Nat.le_total z (c.exponent.toNat - 1) with hle | hle
        · exfalso
          rw [Nat.min_eq_left hle] at hj
          have : 2 ^ (26 - z) * 2 ^ z ≤ c.sum.toNat * 2 ^ z := Nat.mul_le_mul_right _ hz5
          rw [← pow_add, show 26 - z + z = 26 by omega] at this
          rw [hnsum, hj] at hn26
          omega
        · rw [Nat.min_eq_right hle] at hj; exact hj
      have hd3 : d ≤ 3 := by
        by_contra hcon
        have := hjd (by omega)
        omega
      have e3 := hexact hd3
      have hjkd : j = k + d := by omega
      have hval : n.sum.toNat = 8 * v.natAbs := by
        rw [hnsum, hjkd, hmag, pow_add, ← Nat.mul_assoc, Nat.mul_right_comm, e3]; ring
      refine ⟨by omega, by omega, fun _ => ⟨by omega, hval⟩, ?_, ?_⟩
      · rw [roundedPattern_of_small (by omega), hne, hjE, hval, show 8 * v.natAbs = v.natAbs * 2 ^ 3 by ring]
        have := roundedQuotient_scale v.natAbs 0 3
        rw [roundedQuotient_zero] at this
        rw [Nat.zero_add] at this
        rw [this]
        omega
      · rw [hnsum]; have := Nat.mul_pos (Nat.pos_of_ne_zero hs0) (Nat.two_pow_pos j); omega
    · have hrange : 2 ^ 26 * 2 ^ d ≤ 8 * w * 2 ^ j ∧ 8 * w * 2 ^ j < 2 ^ 27 * 2 ^ d := by
        rw [hnsum] at hn26
        by_cases h2 : 2 ≤ d
        · have hlo := (even_le_oddQuotient_iff (n := 8 * w) (d := d) (m := 2 ^ (25 - j)))
          have hhi := (even_le_oddQuotient_iff (n := 8 * w) (d := d) (m := 2 ^ (26 - j)))
          rw [← hsum] at hlo hhi
          rcases (show j = 0 ∨ j = 1 by have := hjd h2; omega) with h | h <;>
            · rw [h] at hlo hhi hn26 hn27 ⊢
              norm_num at hlo hhi hn26 hn27 ⊢
              omega
        · have e3 := hexact (by omega)
          rw [← e3, Nat.mul_right_comm]
          exact ⟨Nat.mul_le_mul_right _ (by omega), Nat.mul_lt_mul_of_pos_right hn27 hpd⟩
      rw [Nat.mul_assoc] at hrange
      obtain ⟨t, ht⟩ : ∃ t, k + d = j + t := ⟨k + d - j, by omega⟩
      have hp2 : 2 ^ d * 2 ^ k = 2 ^ j * 2 ^ t := by rw [← pow_add, ← pow_add, Nat.add_comm d, ht]
      have hj2 : 0 < 2 ^ j := Nat.two_pow_pos j
      have hk2 : 0 < 2 ^ k := Nat.two_pow_pos k
      have hv1 : 2 ^ (t + 23) ≤ v.natAbs := by
        rw [hmag, pow_add]
        refine Nat.le_of_mul_le_mul_left ?_ hj2
        calc 2 ^ j * (2 ^ t * 2 ^ 23) = 2 ^ 23 * (2 ^ d * 2 ^ k) := by rw [hp2]; ring
          _ = 2 ^ 23 * 2 ^ d * 2 ^ k := by ring
          _ ≤ w * 2 ^ j * 2 ^ k := Nat.mul_le_mul_right _ (by omega)
          _ = 2 ^ j * (w * 2 ^ k) := by ring
      have hv2 : v.natAbs < 2 ^ (t + 24) := by
        rw [hmag, pow_add]
        refine Nat.lt_of_mul_lt_mul_left (a := 2 ^ j) ?_
        calc 2 ^ j * (w * 2 ^ k) = w * 2 ^ j * 2 ^ k := by ring
          _ < 2 ^ 24 * 2 ^ d * 2 ^ k := Nat.mul_lt_mul_of_pos_right (by omega) hk2
          _ = 2 ^ 24 * (2 ^ d * 2 ^ k) := by ring
          _ = 2 ^ j * (2 ^ t * 2 ^ 24) := by rw [hp2]; ring
      have hrq : roundedQuotient v.natAbs t = roundedQuotient (w * 2 ^ j) d := by
        rw [← roundedQuotient_scale _ t j, hmag, show w * 2 ^ k * 2 ^ j = w * 2 ^ j * 2 ^ k by ring,
          show t + j = d + k by omega, roundedQuotient_scale]
      refine ⟨by omega, by omega, fun h => absurd h hn26, ?_, by omega⟩
      rw [roundedPattern_of_range hv1 hv2, hround, hrq, show n.exponent.toNat - 1 = t by omega]

end Sys2Proof.Machine
end

