-- ==== Sys2Proof/Laws/PerInstr.lean ====
section
/-! SUPPORT. What is proved once per constructor of `Instr`. The family RowMatch: the word that a well-formed instruction is
encoded to has its row's format and matches the row of `spec/opcode_table.json`. -/

namespace Sys2Proof.Laws

open Sys2Proof.Machine

/-- The row of an instruction, by its `match` and `mask` and by the `note` that says what it excludes. The row of a Normal
has no match and mask: its note gives the two exponents that it excludes. -/
def RowMatch.inRow : Instr → Presentation → Prop
  | .add _ _, .transaction _ => True
  | .classZero _, .operand x => x &&& 0x7FFFFFFF = 0x00000000
  | .classSubnormal _ _, .operand x => x &&& 0x7F800000 = 0x00000000 ∧ x &&& 0x007FFFFF ≠ 0x00000000
  | .classNormal _ _ _, .operand x => x &&& 0x7F800000 ≠ 0x00000000 ∧ x &&& 0x7F800000 ≠ 0x7F800000
  | .classInfinity _, .operand x => x &&& 0x7FFFFFFF = 0x7F800000
  | .classNan _ _, .operand x => x &&& 0x7F800000 = 0x7F800000 ∧ x &&& 0x007FFFFF ≠ 0x00000000
  | .add _ _, .operand _ => False
  | .classZero _, .transaction _ => False
  | .classSubnormal _ _, .transaction _ => False
  | .classNormal _ _ _, .transaction _ => False
  | .classInfinity _, .transaction _ => False
  | .classNan _ _, .transaction _ => False

/-- The word of a well-formed instruction matches its row. -/
def RowMatch.Statement (i : Instr) : Prop := i.wellFormed = true → RowMatch.inRow i (encode i)

theorem packFields_and (s s' : BitVec 1) (e e' : BitVec 8) (f f' : BitVec 23) :
    packFields s e f &&& packFields s' e' f' = packFields (s &&& s') (e &&& e') (f &&& f') := by
  unfold packFields
  change ((s ++ e ++ f : BitVec (1 + 8 + 23)) &&& (s' ++ e' ++ f')) = _
  rw [BitVec.and_append, BitVec.and_append]

/-- The mask of the exponent field leaves the exponent. -/
theorem packFields_and_exponentMask (s : BitVec 1) (e : BitVec 8) (f : BitVec 23) :
    packFields s e f &&& 0x7F800000 = packFields 0 e 0 := by
  rw [show (0x7F800000 : Word) = packFields 0 (BitVec.allOnes 8) 0 by decide, packFields_and]
  exact congr (congr (congrArg packFields (BitVec.and_zero)) (BitVec.and_allOnes)) (BitVec.and_zero)

/-- The mask of the fraction field leaves the fraction. -/
theorem packFields_and_fractionMask (s : BitVec 1) (e : BitVec 8) (f : BitVec 23) :
    packFields s e f &&& 0x007FFFFF = packFields 0 0 f := by
  rw [show (0x007FFFFF : Word) = packFields 0 0 (BitVec.allOnes 23) by decide, packFields_and]
  exact congr (congr (congrArg packFields (BitVec.and_zero)) (BitVec.and_zero)) (BitVec.and_allOnes)

theorem packFields_exponent_inj {e e' : BitVec 8} : packFields 0 e 0 = packFields 0 e' 0 ↔ e = e' :=
  ⟨fun h => by simpa using congrArg exponentField h, fun h => by rw [h]⟩

theorem packFields_fraction_ne_zero {f : BitVec 23} (h : f ≠ 0) : packFields 0 0 f ≠ 0x00000000 := fun h0 => by
  have := congrArg fractionField h0
  rw [fractionField_packFields] at this
  exact h (this.trans (by decide))

theorem RowMatch.add (a b : Word) : RowMatch.Statement (.add a b) := fun _ => trivial

theorem RowMatch.classZero (sign : BitVec 1) : RowMatch.Statement (.classZero sign) := by
  suffices h : ∀ sign : BitVec 1, packFields sign 0 0 &&& 0x7FFFFFFF = 0x00000000 from fun _ => h sign
  decide

theorem RowMatch.classSubnormal (sign : BitVec 1) (fraction : BitVec 23) :
    RowMatch.Statement (.classSubnormal sign fraction) := by
  intro h
  have hf : fraction ≠ 0 := by simpa [Instr.wellFormed] using h
  change packFields sign 0 fraction &&& _ = _ ∧ packFields sign 0 fraction &&& _ ≠ _
  rw [packFields_and_exponentMask, packFields_and_fractionMask]
  exact ⟨by decide, packFields_fraction_ne_zero hf⟩

theorem RowMatch.classNormal (sign : BitVec 1) (exponent : BitVec 8) (fraction : BitVec 23) :
    RowMatch.Statement (.classNormal sign exponent fraction) := by
  intro h
  have he : exponent ≠ 0 ∧ exponent ≠ 255 := by simpa [Instr.wellFormed] using h
  change packFields sign exponent fraction &&& _ ≠ _ ∧ packFields sign exponent fraction &&& _ ≠ _
  rw [packFields_and_exponentMask]
  exact ⟨fun h0 => he.1 (packFields_exponent_inj.mp (h0.trans (by decide))),
    fun h0 => he.2 (packFields_exponent_inj.mp (h0.trans (by decide)))⟩

theorem RowMatch.classInfinity (sign : BitVec 1) : RowMatch.Statement (.classInfinity sign) := by
  suffices h : ∀ sign : BitVec 1, packFields sign 255 0 &&& 0x7FFFFFFF = 0x7F800000 from fun _ => h sign
  decide

theorem RowMatch.classNan (sign : BitVec 1) (fraction : BitVec 23) :
    RowMatch.Statement (.classNan sign fraction) := by
  intro h
  have hf : fraction ≠ 0 := by simpa [Instr.wellFormed] using h
  change packFields sign 255 fraction &&& _ = _ ∧ packFields sign 255 fraction &&& _ ≠ _
  rw [packFields_and_exponentMask, packFields_and_fractionMask]
  exact ⟨by decide, packFields_fraction_ne_zero hf⟩

end Sys2Proof.Laws
end

