-- ==== Sys2Proof/Laws/State.lean ====
section
/-! SUPPORT. One lemma per field per update of the state, and what each operation over the state does. -/

namespace Sys2Proof.Machine

variable (s : State) (a b x : Word) (p : Presentation)

@[simp] theorem State.drive_pending : (s.drive a b).pending = s.pending := rfl
@[simp] theorem State.drive_a : (s.drive a b).a = a := rfl
@[simp] theorem State.drive_b : (s.drive a b).b = b := rfl
@[simp] theorem State.drive_y : (s.drive a b).y = addFloat32 a b := rfl

@[simp] theorem State.advance_pending : s.advance.pending = s.pending.tail := rfl
@[simp] theorem State.advance_a : s.advance.a = s.a := rfl
@[simp] theorem State.advance_b : s.advance.b = s.b := rfl
@[simp] theorem State.advance_y : s.advance.y = s.y := rfl

@[simp] theorem State.evaluate_pending : (s.evaluate a b).pending = s.pending.tail := rfl
@[simp] theorem State.evaluate_a : (s.evaluate a b).a = a := rfl
@[simp] theorem State.evaluate_b : (s.evaluate a b).b = b := rfl
@[simp] theorem State.evaluate_y : (s.evaluate a b).y = addFloat32 a b := rfl

@[simp] theorem State.presentOperand_pending : (s.presentOperand x).pending = s.pending.tail := rfl
@[simp] theorem State.presentOperand_a : (s.presentOperand x).a = s.a := rfl
@[simp] theorem State.presentOperand_b : (s.presentOperand x).b = s.b := rfl
@[simp] theorem State.presentOperand_y : (s.presentOperand x).y = s.y := rfl

@[simp] theorem State.present_pending : (s.present p).pending = p :: s.pending := rfl
@[simp] theorem State.present_a : (s.present p).a = s.a := rfl
@[simp] theorem State.present_b : (s.present p).b = s.b := rfl
@[simp] theorem State.present_y : (s.present p).y = s.y := rfl
@[simp] theorem State.present_presented : (s.present p).presented = p := rfl

theorem State.presented_of_pending_nil (h : s.pending = []) :
    s.presented = .transaction (transactionWord s.a s.b) := by
  simp [State.presented, h]

theorem State.presented_of_pending_cons {q : Presentation} {rest : List Presentation} (h : s.pending = q :: rest) :
    s.presented = q := by
  simp [State.presented, h]

/-- Everything that executing an instruction can do: an evaluation for ADD, and for an operand row the
presentation is taken and no port changes. -/
theorem exec_cases (i : Instr) {s s' : State} (h : exec i s = .next s') :
    (∃ a b, i = .add a b ∧ s' = s.evaluate a b) ∨
    (∃ x, encode i = .operand x ∧ s' = s.presentOperand x) := by
  cases i <;> (injection h with h; subst h)
  case add a b => exact .inl ⟨a, b, rfl, rfl⟩
  all_goals exact .inr ⟨_, rfl, rfl⟩

/-- Everything that a step can do. -/
theorem step_cases {s s' : State} (h : step s = .next s') :
    (∃ a b, decode s.presented = .add a b ∧ s' = s.evaluate a b) ∨
    (∃ x, encode (decode s.presented) = .operand x ∧ s' = s.presentOperand x) :=
  exec_cases _ h

end Sys2Proof.Machine
end

