-- ==== Sys2Proof/Laws/Value.lean ====
section
/-! SUPPORT. The value of a finite pattern in units of `2^-149`, by the number that the 31 magnitude bits are; its order;
and the integer rounding as a pattern. -/

namespace Sys2Proof.Machine

/-- The magnitude, in units of `2^-149`, of the finite pattern whose 31 magnitude bits are the number `p`. -/
def magnitudeOfPattern (p : Nat) : Nat :=
  if p < 2 ^ 23 then p else (2 ^ 23 + p % 2 ^ 23) * 2 ^ (p / 2 ^ 23 - 1)

/-- The magnitude of a finite pattern depends on its magnitude bits alone. -/
theorem scaledMagnitude_eq (x : Word) : scaledMagnitude x = magnitudeOfPattern (x.toNat % 2 ^ 31) := by
  have he := exponentField_toNat x
  have hf := fractionField_toNat x
  have hx := x.isLt
  unfold scaledMagnitude magnitudeOfPattern
  rw [workingSignificand_toNat, effectiveExponent_toNat]
  by_cases h0 : exponentField x = 0
  · have he0 : (exponentField x).toNat = 0 := by rw [h0]; rfl
    rw [if_pos h0, if_pos h0, if_pos (by omega), Nat.sub_self, pow_zero]
    omega
  · have : (exponentField x).toNat ≠ 0 := fun h => h0 (BitVec.eq_of_toNat_eq (by simpa using h))
    rw [if_neg h0, if_neg h0, if_neg (by omega), hf, he]
    congr 2
    · omega
    · omega

/-- The magnitude of the pattern `k * 2^23 + q` for a 24-bit significand `q`, the carry out of it included. -/
theorem magnitudeOfPattern_add {k q : Nat} (h : k = 0 ∨ 2 ^ 23 ≤ q) (hq : q ≤ 2 ^ 24) :
    magnitudeOfPattern (k * 2 ^ 23 + q) = q * 2 ^ k := by
  unfold magnitudeOfPattern
  by_cases h23 : q < 2 ^ 23
  · obtain rfl : k = 0 := by omega
    rw [if_pos (by omega)]; omega
  · rw [if_neg (by omega)]
    by_cases h24 : q = 2 ^ 24
    · have e1 : (k * 2 ^ 23 + q) % 2 ^ 23 = 0 := by omega
      have e2 : (k * 2 ^ 23 + q) / 2 ^ 23 - 1 = k + 1 := by omega
      have e3 : 2 ^ (k + 1) = 2 * 2 ^ k := by rw [pow_succ, Nat.mul_comm]
      rw [e1, e2, e3, ← Nat.mul_assoc, show (2 ^ 23 + 0) * 2 = q by omega]
    · rw [show (k * 2 ^ 23 + q) % 2 ^ 23 = q - 2 ^ 23 by omega, show (k * 2 ^ 23 + q) / 2 ^ 23 - 1 = k by omega,
        show 2 ^ 23 + (q - 2 ^ 23) = q by omega]

/-- Magnitudes grow strictly with the magnitude bits (R52). -/
theorem magnitudeOfPattern_lt_succ (p : Nat) : magnitudeOfPattern p < magnitudeOfPattern (p + 1) := by
  have hp (k : Nat) : 0 < 2 ^ k := Nat.two_pow_pos k
  by_cases h : p < 2 ^ 23
  · have e1 := magnitudeOfPattern_add (k := 0) (q := p) (.inl rfl) (by omega)
    have e2 := magnitudeOfPattern_add (k := 0) (q := p + 1) (.inl rfl) (by omega)
    simp only [Nat.zero_mul, Nat.zero_add, pow_zero, Nat.mul_one] at e1 e2
    omega
  · obtain ⟨k, hk⟩ : ∃ k, p / 2 ^ 23 = k + 1 := ⟨p / 2 ^ 23 - 1, by omega⟩
    have e1 := magnitudeOfPattern_add (k := k) (q := 2 ^ 23 + p % 2 ^ 23) (.inr (by omega)) (by omega)
    have e2 := magnitudeOfPattern_add (k := k) (q := 2 ^ 23 + p % 2 ^ 23 + 1) (.inr (by omega)) (by omega)
    rw [show k * 2 ^ 23 + (2 ^ 23 + p % 2 ^ 23) = p by omega] at e1
    rw [show k * 2 ^ 23 + (2 ^ 23 + p % 2 ^ 23 + 1) = p + 1 by omega] at e2
    rw [e1, e2]
    exact Nat.mul_lt_mul_of_pos_right (by omega) (hp k)

theorem magnitudeOfPattern_strictMono : StrictMono magnitudeOfPattern :=
  strictMono_nat_of_lt_succ magnitudeOfPattern_lt_succ

/-- `value(x)` of R40 is a whole number of units of `2^-149`. -/
theorem value_eq_scaledValue (x : Word) : value x = (scaledValue x : ℚ) / 2 ^ 149 := by
  have hpos := effectiveExponent_pos x
  unfold value
  rw [scaledValue_eq, scaledMagnitude]
  have hz : (2 : ℚ) ^ ((effectiveExponent (decodeFields x)).toNat - 150 : ℤ) =
      2 ^ ((effectiveExponent (decodeFields x)).toNat - 1) / 2 ^ 149 := by
    rw [eq_div_iff (by positivity), ← zpow_natCast, ← zpow_natCast, ← zpow_add₀ (by norm_num)]
    congr 1
    push_cast [Nat.cast_sub hpos]
    ring
  rw [hz]
  rcases sign_cases (signField x) with h | h <;> rw [h] <;> push_cast <;> norm_num <;> ring

theorem abs_value_eq (x : Word) : |value x| = (scaledMagnitude x : ℚ) / 2 ^ 149 := by
  rw [value_eq_scaledValue, abs_div, abs_of_pos (by positivity : (0 : ℚ) < 2 ^ 149), scaledValue_eq]
  congr 1
  rcases sign_cases (signField x) with h | h <;> rw [h] <;> simp

/-- The exact sum of two finite operands in units of `2^-149`. -/
theorem value_add_value (a b : Word) : value a + value b = ((scaledValue a + scaledValue b : Int) : ℚ) / 2 ^ 149 := by
  rw [value_eq_scaledValue, value_eq_scaledValue]
  push_cast
  ring

theorem value_add_value_eq_zero (a b : Word) : value a + value b = 0 ↔ scaledValue a + scaledValue b = 0 := by
  rw [value_add_value, div_eq_zero_iff]
  constructor
  · rintro (h | h)
    · exact_mod_cast h
    · exact absurd h (by positivity)
  · intro h
    left
    exact_mod_cast h

/-- The integer rounding as a number: the sign, and the rounded pattern or the infinity. -/
theorem exactRne_toNat (v : Int) :
    (exactRne v).toNat = (signOfSum v).toNat * 2 ^ 31 +
      if roundedPattern v.natAbs < 0x7F800000 then roundedPattern v.natAbs else 0x7F800000 := by
  have hor (s : BitVec 1) (q : Nat) (hq : q < 2 ^ 31) :
      (packFields s 0 0 ||| BitVec.ofNat 32 q).toNat = s.toNat * 2 ^ 31 + q := by
    rw [BitVec.toNat_or, packFields_toNat, BitVec.toNat_ofNat, Nat.mod_eq_of_lt (by omega)]
    simp only [BitVec.ofNat_eq_ofNat, BitVec.toNat_ofNat, Nat.zero_mod, Nat.zero_mul, Nat.add_zero]
    rw [← Nat.shiftLeft_eq, Nat.shiftLeft_add_eq_or_of_lt hq]
  unfold exactRne
  split_ifs with h1 h2 h2
  · rw [hor _ _ (by omega), signOfSum, if_pos h1]
  · exact (hor 1 0x7F800000 (by norm_num)).trans (by rw [signOfSum, if_pos h1])
  · rw [hor _ _ (by omega), signOfSum, if_neg h1]
  · exact (hor 0 0x7F800000 (by norm_num)).trans (by rw [signOfSum, if_neg h1])

end Sys2Proof.Machine
end

