-- ==== Sys2Proof/Tests/Slice0.lean ====
section
/-! SUPPORT. The model's own tests: ill-formed terms, decoding, one step of each instruction, vectors of the stages, and,
for every statement with hypotheses, operands that meet them. Expected results are those of 95_test_vectors.md (its
section in each comment), or of the encodings of the opcode table. -/

namespace Sys2Proof.Tests

open Sys2Proof.Machine Sys2Proof.Config

/-! ### WellFormed: each check refuses an ill-formed term, and accepts the bounds (30_encoding.md R41) -/

theorem test_subnormal_needs_fraction : (Instr.classSubnormal 0 0).wellFormed = false := by decide
theorem test_normal_excludes_exponent_0 : (Instr.classNormal 0 0 1).wellFormed = false := by decide
theorem test_normal_excludes_exponent_255 : (Instr.classNormal 1 255 0).wellFormed = false := by decide
theorem test_nan_needs_fraction : (Instr.classNan 1 0).wellFormed = false := by decide

/-- Meets the hypothesis of `DecodeOfEncodeIsIdentity` for every constructor, at the bounds of its fields. -/
theorem test_witness_decodeOfEncodeIsIdentity :
    (Instr.add 0xFFFFFFFF 0x00000000).wellFormed = true ∧ (Instr.classZero 1).wellFormed = true ∧
    (Instr.classSubnormal 1 1).wellFormed = true ∧ (Instr.classSubnormal 0 0x7FFFFF).wellFormed = true ∧
    (Instr.classNormal 0 1 0).wellFormed = true ∧ (Instr.classNormal 1 254 0x7FFFFF).wellFormed = true ∧
    (Instr.classInfinity 0).wellFormed = true ∧ (Instr.classNan 1 1).wellFormed = true ∧
    (Instr.classNan 0 0x7FFFFF).wellFormed = true := by decide

/-! ### Decoding: words written out bit by bit from the `encoding` of each row (section 2.1) -/

theorem test_decode_add :
    decodeTableWord 64 0b01000001001000110011001100110011_00111101110011001100110011001101 =
      some (.add 0x41233333 0x3DCCCCCD) := by decide

theorem test_decode_classZero :
    decodeTableWord 32 0b1_00000000_00000000000000000000000 = some (.classZero 1) := by decide

theorem test_decode_classSubnormal :
    decodeTableWord 32 0b1_00000000_11111111111111111111111 = some (.classSubnormal 1 0x7FFFFF) ∧
    decodeTableWord 32 0b0_00000000_00000000000000000000001 = some (.classSubnormal 0 1) := by decide

theorem test_decode_classNormal :
    decodeTableWord 32 0b0_11111110_11111111111111111111111 = some (.classNormal 0 0xFE 0x7FFFFF) ∧
    decodeTableWord 32 0b1_00000001_00000000000000000000000 = some (.classNormal 1 0x01 0) := by decide

theorem test_decode_classInfinity :
    decodeTableWord 32 0b1_11111111_00000000000000000000000 = some (.classInfinity 1) := by decide

theorem test_decode_classNan :
    decodeTableWord 32 0b0_11111111_00000000000000000000001 = some (.classNan 0 1) ∧
    decodeTableWord 32 0b1_11111111_11111111111111111111111 = some (.classNan 1 0x7FFFFF) := by decide

theorem test_decode_rejects_other_words :
    decodeWord 16 0x3F80 = .error (.noSuchFormat 16) ∧ decodeWord 32 0x100000000 = .error (.wordTooWide 32) := by decide

/-! ### One step of each instruction -/

/-- The output after one step on a table word from reset. -/
def outputOf (nbits w : Nat) : Option Word :=
  match step (State.reset.withFetchWord nbits w) with
  | .next s => some s.y
  | .fault _ => none
  | .refused _ => none

/-- 1.0 and 2.0 on the inputs, and two words presented next. -/
def busyState : State := { State.reset with a := 0x3F800000, b := 0x40000000, pending := [.operand 0x7F800001, .operand 0] }

/-- The class of the row that a 32-bit table word decodes to, with what one step on it leaves: the words still to be
presented, the inputs, and the output, which stays 3.0 (40_add.md R53, the example). -/
def operandStep (w : Nat) : Option (Option OperandClass × List Presentation × Word × Word × Word) :=
  match decodeTableWord 32 w, step (busyState.withFetchWord 32 w) with
  | some i, .next s => some (rowClass i, s.pending, s.a, s.b, s.y)
  | _, _ => none

/-- The result of `operandStep` for an operand of class `c`. -/
def taken (c : OperandClass) : Option (Option OperandClass × List Presentation × Word × Word × Word) :=
  some (some c, [.operand 0x7F800001, .operand 0], 0x3F800000, 0x40000000, 0x40400000)

/-- The literal scenario (section 1). -/
theorem test_step_add : outputOf 64 0x412333333DCCCCCD = some 0x4124CCCD := by decide

/-- The order of the operands shows where both are NaN (section 2.2). -/
theorem test_step_add_nans : outputOf 64 0xFFC000027FC00001 = some 0xFFC00002 := by decide

theorem test_step_classZero : operandStep 0x80000000 = taken .zero := by decide
theorem test_step_classSubnormal : operandStep 0x807FFFFF = taken .subnormal := by decide
theorem test_step_classNormal : operandStep 0x7F7FFFFF = taken .normal := by decide
theorem test_step_classInfinity : operandStep 0xFF800000 = taken .infinity := by decide
theorem test_step_classNan : operandStep 0x7F800001 = taken .nan := by decide

/-! ### Vectors of the helper functions (section 2.3) -/

theorem test_jamming_shift :
    jamShiftRight 0x4000008 4 = 0x0400001 ∧ jamShiftRight 0x4000000 4 = 0x0400000 ∧
    jamShiftRight 0x7FFFFF8 25 = 0x0000003 ∧ jamShiftRight 0x4000000 27 = 0x0000001 ∧
    jamShiftRight 0x0000000 30 = 0x0000000 := by decide

theorem test_lzc27 : lzc27 0x4000000 = 0 ∧ lzc27 0x0000004 = 24 ∧ lzc27 0x0000001 = 26 ∧ lzc27 0 = 27 := by decide

/-- A value just below the overflow threshold, and the two sums of 90_conflicts.md C2 and C4 (sections 2.3, 2.4). -/
theorem test_corner_sums :
    addFloat32 0x7F7FFFFF 0x72FFFFFF = 0x7F7FFFFF ∧ addFloat32 0x00800000 0x00000001 = 0x00800001 ∧
    addFloat32 0x0D000000 0x80800001 = 0x0CFFFFFF := by decide

/-! ### Hypotheses met: state and steps -/

/-- +Infinity and -Infinity on the inputs, and nothing presented. -/
def stateOfInfinities : State := { State.reset with a := 0x7F800000, b := 0xFF800000 }

theorem test_witness_stepKeepsOutputCorrect :
    stateOfInfinities.Correct ∧ ∃ s', step stateOfInfinities = .next s' := by
  refine ⟨?_, _, rfl⟩
  unfold State.Correct IsCorrectSum IsSpecialSum
  rw [if_neg (by decide)]
  decide

theorem test_witness_stepSettlesFromAnyState : ∃ s', step busyState = .next s' := ⟨_, rfl⟩

/-- Both cases of `StepRunsDecodedInstruction`: a presentation at the head, and none. -/
theorem test_witness_stepRunsDecodedInstruction :
    busyState.pending = .operand 0x7F800001 :: [.operand 0] ∧ stateOfInfinities.pending = [] := by decide

theorem test_witness_idleStepChangesNothing : stateOfInfinities.pending = [] := by decide

/-- Two different states that present the same pair. -/
theorem test_witness_sumDependsOnOperandsAlone :
    ∃ s t s' t' : State, s ≠ t ∧
      s.presented = .transaction (transactionWord 0x3F800000 0x40000000) ∧
      t.presented = .transaction (transactionWord 0x3F800000 0x40000000) ∧ step s = .next s' ∧ step t = .next t' :=
  ⟨{ stateOfInfinities with pending := [.transaction 0x3F80000040000000] },
    { busyState with pending := [.transaction 0x3F80000040000000, .operand 0] }, _, _,
    by decide, by decide, by decide, rfl, rfl⟩

theorem test_witness_evaluationIsIdempotent :
    ∃ s', exec (.add 0x3F800000 0x40000000) busyState = .next s' := ⟨_, rfl⟩

theorem test_witness_rawWordsDecodeByFormat :
    (0xFFFF < 2 ^ 16 ∧ 16 ≠ 32 ∧ 16 ≠ 64) ∧ (2 ^ 64 - 1 < 2 ^ 65 ∧ 65 ≠ 32 ∧ 65 ≠ 64) ∧ 2 ^ 32 ≤ 0x100000000 := by decide

/-- The three bounds of `OperandRowsClassify`, each at both ends. -/
theorem test_witness_operandRowsClassify :
    ((1 : BitVec 23) ≠ 0 ∧ (0x7FFFFF : BitVec 23) ≠ 0) ∧
    ((1 : BitVec 8) ≠ 0 ∧ (1 : BitVec 8) ≠ 255) ∧ ((254 : BitVec 8) ≠ 0 ∧ (254 : BitVec 8) ≠ 255) := by decide

/-- Each clause of `OperandRowsDecideDispatchLines`, with each of the two lines that it names. -/
theorem test_witness_operandRowsDecideDispatchLines :
    (rowClass (decode (.operand 0x80000000)) = some .zero ∧ isFinite 0x00000000 = true ∧ isFinite 0x7F7FFFFF = true) ∧
    (rowClass (decode (.operand 0x00000001)) = some .subnormal ∧ rowClass (decode (.operand 0x7F7FFFFF)) = some .normal ∧
      isFiniteNonzero 0x807FFFFF = true) ∧
    (rowClass (decode (.operand 0xFF800000)) = some .infinity ∧ classify 0x7F800000 ≠ .nan ∧ classify 0x00000001 ≠ .nan) ∧
    rowClass (decode (.operand 0x7F800001)) = some .nan := by decide

/-! ### Hypotheses met: operands (section 2.1) -/

theorem test_witness_valueOfFinitePattern :
    (isFinite 0x7F7FFFFF = true ∧ classify 0x7F7FFFFF = .normal) ∧
    (isFinite 0x00800000 = true ∧ classify 0x00800000 = .normal) ∧
    (isFinite 0x807FFFFF = true ∧ classify 0x807FFFFF = .subnormal) ∧
    (isFinite 0x80000000 = true ∧ classify 0x80000000 = .zero) := by decide

theorem test_witness_significandAndEffectiveExponent :
    classify 0x00800000 = .normal ∧ classify 0x7F7FFFFF = .normal ∧ classify 0x00000001 = .subnormal ∧
    classify 0x807FFFFF = .subnormal ∧ classify 0x80000000 = .zero := by decide

theorem test_witness_magnitudesOrderAsPatterns :
    (classify 0x7F7FFFFF ≠ .nan ∧ classify 0xFF800000 ≠ .nan ∧ magnitudeField 0x7F7FFFFF < magnitudeField 0xFF800000) ∧
    (classify 0x00000000 ≠ .nan ∧ classify 0x80000000 ≠ .nan ∧
      magnitudeField 0x00000000 = magnitudeField 0x80000000) := by decide

/-- The ten lines of the class table of R54, in order (section 2.2). -/
theorem test_witness_resultClassTable :
    classify 0x7F800001 = .nan ∧ (classify 0x3F800000 ≠ .nan ∧ classify 0xFF800123 = .nan) ∧
    (classify 0xFF800000 = .infinity ∧ classify 0x7F800000 = .infinity ∧ signField 0xFF800000 ≠ signField 0x7F800000) ∧
    (isFinite 0x7F7FFFFF = true ∧ classify 0xFF800000 = .infinity) ∧
    (classify 0x80000000 = .zero ∧ classify 0x00000000 = .zero) ∧
    (classify 0x80000000 = .zero ∧ isFiniteNonzero 0x00000001 = true) ∧
    (isFiniteNonzero 0xBF800000 = true ∧ isFiniteNonzero 0x807FFFFF = true) := by decide

/-! ### Hypotheses met: values -/

/-- An overflow at the threshold, a tie, and a subnormal sum (section 2.4). -/
theorem test_witness_sumIsRoundedToNearestEven :
    (isFinite 0x7F7FFFFF = true ∧ isFinite 0x73000000 = true ∧ value 0x7F7FFFFF + value 0x73000000 ≠ 0) ∧
    (isFinite 0x4B800000 = true ∧ isFinite 0x3F800000 = true ∧ value 0x4B800000 + value 0x3F800000 ≠ 0) ∧
    (isFinite 0x00800000 = true ∧ isFinite 0x80000001 = true ∧ value 0x00800000 + value 0x80000001 ≠ 0) := by
  simp only [Ne, value_add_value_eq_zero]
  decide

theorem test_witness_datapathEqualsExactRounding :
    isFinite 0x0D000000 = true ∧ isFinite 0x80800001 = true ∧ scaledValue 0x0D000000 + scaledValue 0x80800001 ≠ 0 := by
  decide

theorem test_witness_exactRoundingIsRne : (-3 : Int) ≠ 0 := by decide

/-- `RNE` of the overflow threshold, and of twice the smallest magnitude, which is a pattern of its own (R56). -/
theorem test_witness_roundedResultIsUnique :
    ((2 : ℚ) ^ 128 ≠ 0 ∧ IsRne (2 ^ 128) 0x7F800000) ∧ (value 0x00000002 ≠ 0 ∧ IsRne (value 0x00000002) 0x00000002) := by
  refine ⟨⟨by norm_num, ?_⟩, ?_, ?_⟩
  · have h : signOfValue (2 ^ 128) = 0 := if_neg (by norm_num)
    rw [IsRne, h, if_pos (by rw [overflowThreshold]; norm_num)]
    decide
  · rw [value_eq_scaledValue, show scaledValue 0x00000002 = 2 by decide]
    norm_num
  · have hv : value 0x00000002 = 2 / 2 ^ 149 := by
      rw [value_eq_scaledValue, show scaledValue 0x00000002 = 2 by decide]
      norm_num
    have h : signOfValue (value 0x00000002) = 0 := if_neg (by rw [hv]; norm_num)
    rw [IsRne, h, if_neg (by rw [hv, overflowThreshold]; norm_num)]
    refine ⟨by decide, by rw [h]; decide, fun z _ _ => ⟨?_, fun _ _ => by decide⟩⟩
    simp [magnitudeDistance]

theorem test_witness_exactZeroSums :
    (isFinite 0x80000000 = true ∧ value 0x80000000 + value 0x80000000 = 0) ∧
    (isFinite 0x3F800000 = true ∧ isFinite 0xBF800000 = true ∧ value 0x3F800000 + value 0xBF800000 = 0) := by
  simp only [value_add_value_eq_zero]
  decide

theorem test_witness_additionCommutes :
    ¬(classify 0x3F800001 = .nan ∧ classify 0x7F800001 = .nan) ∧
    (classify 0x7FC00001 = .nan ∧ classify 0xFFC00002 = .nan) := by decide

theorem test_witness_addingZeroIsIdentity : (0xFF800000 : Word) ≠ 0x80000000 := by decide

theorem test_witness_nanAbsorbs :
    (classify 0x3F800000 = .nan ∨ classify 0x7F800001 = .nan) ∧ (classify 0xFFFFFFFF = .nan ∨ classify 0x7F800000 = .nan) := by
  decide

theorem test_witness_infinityRules : isFinite 0xFF7FFFFF = true ∧ isFinite 0x80000000 = true := by decide

/-- The largest Subnormal, from a sum that cancels down to it (section 2.4). -/
theorem test_witness_tinySumsAreExact :
    isFinite 0x00FFFFFF = true ∧ isFinite 0x80800000 = true ∧
      |value 0x00FFFFFF + value 0x80800000| < 2 ^ (-126 : ℤ) := by
  refine ⟨by decide, by decide, ?_⟩
  rw [value_add_value, show scaledValue 0x00FFFFFF + scaledValue 0x80800000 = 0x7FFFFF by decide]
  norm_num

/-! ### Hypotheses met: dispatch and general path (sections 2.2 to 2.4) -/

/-- A build with the other NaN and another canonical NaN differs in exactly the two cases. -/
theorem test_witness_parametersTouchOnlyTheirCases :
    classify 0xFFC00000 = .nan ∧
    addFloat32With ⟨0xFFC00000, .second⟩ 0x7FC00001 0xFFC00002 ≠ addFloat32 0x7FC00001 0xFFC00002 ∧
    addFloat32With ⟨0xFFC00000, .second⟩ 0xFF800000 0x7F800000 ≠ addFloat32 0xFF800000 0x7F800000 ∧
    ¬(classify 0x3F800000 = .nan ∧ classify 0x7F800001 = .nan) := by decide

theorem test_witness_alignerInputsAreFiniteNonzero :
    dispatchLine (classify 0x00000001) (classify 0x7F7FFFFF) = .generalPath := by decide

/-- Both ends of each range of shifts. -/
theorem test_witness_jammingShiftBits : (1 ≤ 1 ∧ 1 < 27) ∧ (1 ≤ 26 ∧ 26 < 27) ∧ 27 ≤ 27 := by decide

theorem test_witness_stickyBitIsTheLostBits : lostBits 0x6666668 7 = 1 ∧ lostBits 0x4000000 30 = 1 ∧ 3 ≤ 3 := by decide

theorem test_witness_largeShiftsLeaveTheStickyBit :
    ((0x4000000 : BitVec 27) ≠ 0 ∧ 26 ≤ 26) ∧ (0x800000 : BitVec 24).getLsbD 23 = true := by decide

/-- The largest exponent difference, and equal exponents. -/
theorem test_witness_alignerShiftsTheSmallerExponent :
    (isFinite 0x7F000000 = true ∧ isFinite 0x00000001 = true) ∧
    (effectiveExponent (decodeFields 0x00800000)).toNat = (effectiveExponent (decodeFields 0x00000001)).toNat := by decide

/-- Each clause of `MagnitudeEngineIsExact`, with the largest sum (R89). -/
theorem test_witness_magnitudeEngineIsExact :
    combineMagnitudes ⟨254, 0x7FFFFF8, 0x7FFFFF8, 0⟩ 1 1 = some ⟨1, 254, 0xFFFFFF0, 1, .sameSign⟩ ∧
    combineMagnitudes ⟨130, 0x5000000, 0x2800000, 0⟩ 0 1 = some ⟨0, 130, 0x2800000, 0, .diffSign⟩ ∧
    combineMagnitudes ⟨128, 0x4000000, 0x6000000, 0⟩ 1 0 = some ⟨0, 128, 0x2000000, 0, .diffSign⟩ := by decide

theorem test_witness_cancellationGivesPositiveZero :
    isFiniteNonzero 0x80000001 = true ∧ isFiniteNonzero 0x00000001 = true ∧ 0x00000001 = hostNegate 0x80000001 ∧
    signField 0x80000001 ≠ signField 0x00000001 ∧
    (alignOperands (decodeFields 0x80000001) (decodeFields 0x00000001)).sigA =
      (alignOperands (decodeFields 0x80000001) (decodeFields 0x00000001)).sigB := by decide

theorem test_witness_alignedSignificandsCompareAsMagnitudes :
    isFiniteNonzero 0x3F800000 = true ∧ isFiniteNonzero 0xBF800001 = true := by decide

/-- A carry that overflows, and one that jams its dropped bit. -/
theorem test_witness_carryShiftsRightAndJams :
    (ReachesNormalizer 0x7F7FFFFF 0x7F7FFFFF ⟨0, 254, 0xFFFFFF0, 1, .sameSign⟩ ∧
      (0xFFFFFF0 : BitVec 28).getLsbD 27 = true ∧ (254 : BitVec 8).toNat + 1 = 255) ∧
    (ReachesNormalizer 0x3ECCCCCD 0x3DCCCCCD ⟨0, 125, 0x8000002, 1, .sameSign⟩ ∧
      (0x8000002 : BitVec 28).getLsbD 27 = true ∧ (125 : BitVec 8).toNat + 1 ≠ 255) := by
  unfold ReachesNormalizer
  decide

/-- The largest left shift, and none. -/
theorem test_witness_leftShiftLosesNoBit :
    (ReachesNormalizer 0x40000000 0xBFFFFFFF ⟨0, 128, 0x0000004, 0, .diffSign⟩ ∧
      (0x0000004 : BitVec 28).getLsbD 27 = false) ∧
    (ReachesNormalizer 0x00000001 0x00000001 ⟨0, 1, 0x0000010, 0, .sameSign⟩ ∧
      (0x0000010 : BitVec 28).getLsbD 27 = false) := by
  unfold ReachesNormalizer
  decide

theorem test_witness_leadingZeroCount : (0x0000001 : BitVec 27) ≠ 0 ∧ (0x4000000 : BitVec 27) ≠ 0 := by decide

/-- The clamp at `E = 1`, and at a cap above 0. -/
theorem test_witness_subnormalClamp :
    (ReachesNormalizer 0x00800001 0x80800000 ⟨0, 1, 0x0000008, 0, .diffSign⟩ ∧
      (0x0000008 : BitVec 28).getLsbD 27 = false ∧ (1 : BitVec 8).toNat - 1 < lzc27 0x0000008) ∧
    (ReachesNormalizer 0x01000001 0x81000000 ⟨0, 2, 0x0000008, 0, .diffSign⟩ ∧
      (0x0000008 : BitVec 28).getLsbD 27 = false ∧ (2 : BitVec 8).toNat - 1 < lzc27 0x0000008) := by
  unfold ReachesNormalizer
  decide

/-- The three cases of R97: the same sign, different signs with `d = 24` and with `d = 1`. -/
theorem test_witness_leftShiftLimits :
    ReachesNormalizer 0x3F800000 0x33800000 ⟨0, 127, 0x4000004, 0, .sameSign⟩ ∧
    ReachesNormalizer 0x40000000 0xB4000000 ⟨0, 128, 0x3FFFFFC, 0, .diffSign⟩ ∧
    ReachesNormalizer 0x40000000 0xBFFFFFFF ⟨0, 128, 0x0000004, 0, .diffSign⟩ := by
  unfold ReachesNormalizer
  decide

/-- `ReachesRounder` from the two stages before it. -/
theorem reachesRounder_of {a b : Word} {n : Normalized} (c : Combined) (h : ReachesNormalizer a b c)
    (hn : normalizeSum c = .inRange n) : ReachesRounder a b n := ⟨c, h, hn⟩

theorem test_witness_subnormalResultsAreExact :
    ReachesRounder 0x00800000 0x80000001 ⟨0, 1, 0x3FFFFF8⟩ ∧ (0x3FFFFF8 : BitVec 27).getLsbD 26 = false :=
  ⟨reachesRounder_of ⟨0, 1, 0x3FFFFF8, 0, .diffSign⟩ (by unfold ReachesNormalizer; decide) (by decide), by decide⟩

/-- The five rows of R100. -/
theorem test_witness_roundingIncrementCases :
    guardBit 0x4000002 = 0 ∧ (guardBit 0x4000007 = 1 ∧ roundBit 0x4000007 = 1) ∧
    (guardBit 0x4000005 = 1 ∧ roundBit 0x4000005 = 0 ∧ stickyBit 0x4000005 = 1) ∧
    (guardBit 0x4000004 = 1 ∧ roundBit 0x4000004 = 0 ∧ stickyBit 0x4000004 = 0) := by decide

/-- A rounding carry that overflows, one that does not, and none. -/
theorem test_witness_roundingCarry :
    ((incrementedSignificand 0x7FFFFFC).getLsbD 24 = true ∧ (254 : BitVec 8).toNat + 1 = 255) ∧
    ((incrementedSignificand 0x7FFFFFC).getLsbD 24 = true ∧ (150 : BitVec 8).toNat + 1 < 255) ∧
    (incrementedSignificand 0x7FFFFFB).getLsbD 24 = false := by decide

/-- An overflow in the normalizer, and one in the rounder, both negative. -/
theorem test_witness_overflowGivesInfinity :
    (ReachesNormalizer 0xFF7FFFFF 0xFF7FFFFF ⟨1, 254, 0xFFFFFF0, 1, .sameSign⟩ ∧
      normalizeSum ⟨1, 254, 0xFFFFFF0, 1, .sameSign⟩ = .overflow 1) ∧
    (ReachesNormalizer 0xFF7FFFFF 0xF3000000 ⟨1, 254, 0x7FFFFFC, 0, .sameSign⟩ ∧
      normalizeSum ⟨1, 254, 0x7FFFFFC, 0, .sameSign⟩ = .inRange ⟨1, 254, 0x7FFFFFC⟩ ∧
      roundSum ⟨1, 254, 0x7FFFFFC⟩ = .overflow 1) := by
  unfold ReachesNormalizer
  decide

/-- A Normal result, and a Subnormal one. -/
theorem test_witness_encoderRange :
    ReachesEncoder 0x41233333 0x3DCCCCCD ⟨0, 130, 0xA4CCCD⟩ ∧
    (ReachesEncoder 0x00000001 0x00000001 ⟨0, 1, 0x000002⟩ ∧ (0x000002 : BitVec 24).getLsbD 23 = false) := by
  refine ⟨⟨⟨0, 130, 0x5266665⟩, reachesRounder_of ⟨0, 130, 0x5266665, 0, .sameSign⟩ ?_ ?_, ?_⟩,
    ⟨⟨0, 1, 0x0000010⟩, reachesRounder_of ⟨0, 1, 0x0000010, 0, .sameSign⟩ ?_ ?_, ?_⟩, ?_⟩ <;>
    first | decide | (unfold ReachesNormalizer; decide)

theorem test_witness_generalPathNeverNanNorNegativeZero :
    (isFiniteNonzero 0x3F800000 = true ∧ isFiniteNonzero 0xBF800000 = true ∧ 0xBF800000 = hostNegate 0x3F800000) ∧
    ReachesNormalizer 0x00000001 0x80000003 ⟨1, 1, 0x0000010, 0, .diffSign⟩ := by
  unfold ReachesNormalizer
  decide

end Sys2Proof.Tests
end

section
/-! SUPPORT. 00_scope.md: what a step does with a presented transaction, and that its sum depends on nothing else. -/

namespace Sys2Proof.Machine

@[simp] theorem firstOperand_transactionWord (a b : Word) : firstOperand (transactionWord a b) = a :=
  BitVec.extractLsb'_append_eq_left

@[simp] theorem secondOperand_transactionWord (a b : Word) : secondOperand (transactionWord a b) = b :=
  BitVec.extractLsb'_append_eq_right

/-- R47 and R48: the transaction word `{a, b}` is ADD of `a` and `b`. -/
@[simp] theorem decode_transactionWord (a b : Word) :
    decode (.transaction (transactionWord a b)) = .add a b := by
  simp [decode]

/-- ADD drives its operands to the ports and takes the presentation; it never stops (R53, R107). -/
theorem exec_add (a b : Word) (s : State) : exec (.add a b) s = .next (s.evaluate a b) := rfl

/-- A step on a presented transaction is its evaluation, whatever else the state holds. -/
theorem step_of_presented_transaction {a b : Word} {s : State}
    (h : s.presented = .transaction (transactionWord a b)) : step s = .next (s.evaluate a b) := by
  rw [step, h, decode_transactionWord, exec_add]

theorem eq_evaluate_of_step {a b : Word} {s s' : State}
    (h : s.presented = .transaction (transactionWord a b)) (hs : step s = .next s') : s' = s.evaluate a b := by
  rw [step_of_presented_transaction h] at hs
  injection hs with hs
  exact hs.symm

/-- Settles O6: both states step to their evaluation of `a` and `b`, which has the operands on its ports and
their sum on `y`, with nothing of the state before it. -/
theorem sumDependsOnOperandsAlone : Obligations.SumDependsOnOperandsAlone := by
  unfold Obligations.SumDependsOnOperandsAlone
  intro a b s t s' t' hs ht hss' htt'
  obtain rfl := eq_evaluate_of_step hs hss'
  obtain rfl := eq_evaluate_of_step ht htt'
  simp only [State.evaluate_a, State.evaluate_b, State.evaluate_y, and_self]

end Sys2Proof.Machine
end

section
/-! SUPPORT. 40_add.md R53: each stage of the datapath computes what the lines of that stage in the listing do. -/

namespace Sys2Proof.Machine

/-! ### Encoder, rounder and normalizer -/

theorem packFields_toNat_eq_packNat (s : BitVec 1) (e : BitVec 8) (f : BitVec 23) :
    (packFields s e f).toNat = packNat s.toNat e.toNat f.toNat :=
  packFields_toNat s e f

theorem infinityOf_toNat (s : BitVec 1) : (infinityOf s).toNat = packNat s.toNat 255 0 :=
  packFields_toNat s 255 0

theorem extractBit_toNat {w : Nat} (v : BitVec w) (i : Nat) : (v.extractLsb' i 1).toNat = v.toNat / 2 ^ i % 2 := by
  rw [BitVec.extractLsb'_toNat, Nat.shiftRight_eq_div_pow, pow_one]

/-- The encoder is the listing's "Encoder" lines (R104). -/
theorem encodeResult_toNat (r : Rounded) :
    (encodeResult r).toNat = encodeLines r.sign.toNat r.significand.toNat r.exponent.toNat := by
  have hlt := r.significand.isLt
  have hhidden : r.significand.extractLsb' 23 1 = 1#1 ↔ r.significand.toNat / 2 ^ 23 = 1 := by
    rw [extractBit_eq_one_iff]; omega
  have hfraction : (r.significand.extractLsb' 0 23).toNat = r.significand.toNat % 2 ^ 23 := by
    rw [BitVec.extractLsb'_toNat, Nat.shiftRight_zero]
  rw [encodeResult, packFields_toNat_eq_packNat, hfraction, encodeLines]
  by_cases h : r.significand.toNat / 2 ^ 23 = 1
  · rw [if_pos h, if_pos (hhidden.mpr h)]
  · rw [if_neg h, if_neg (mt hhidden.mp h)]; rfl

/-- The rounder's 25-bit sum does not wrap (R101). -/
theorem incrementedSignificand_toNat_eq_lines (n : BitVec 27) :
    (incrementedSignificand n).toNat = n.toNat / 8 +
      ((n.toNat / 4 % 2) &&& ((n.toNat / 2 % 2) ||| (n.toNat % 2) ||| (n.toNat / 8 % 2))) := by
  have hn := n.isLt
  have hinc : (roundIncrement n).toNat =
      (n.toNat / 4 % 2) &&& ((n.toNat / 2 % 2) ||| (n.toNat % 2) ||| (n.toNat / 8 % 2)) := by
    simp only [roundIncrement, guardBit, roundBit, stickyBit, lastRetainedBit, BitVec.toNat_and, BitVec.toNat_or,
      extractBit_toNat, Nat.reducePow, Nat.div_one]
  have hlt := (roundIncrement n).isLt
  rw [← hinc, incrementedSignificand, BitVec.toNat_add, BitVec.toNat_setWidth, BitVec.toNat_setWidth,
    BitVec.extractLsb'_toNat, Nat.shiftRight_eq_div_pow]
  omega

/-- Rounder and encoder, with the overflow check between them (R102, R103). -/
def finishRounded (n : Normalized) : Word :=
  match roundSum n with
  | .overflow s => infinityOf s
  | .inRange r => encodeResult r

theorem finishSum_of_overflow {c : Combined} {s : BitVec 1} (h : normalizeSum c = .overflow s) :
    finishSum c = infinityOf s := by
  rw [finishSum, h]

theorem finishSum_of_inRange {c : Combined} {n : Normalized} (h : normalizeSum c = .inRange n) :
    finishSum c = finishRounded n := by
  rw [finishSum, h]; rfl

/-- Rounder and encoder are the listing's "Rounder" and "Encoder" lines (R101 to R104). -/
theorem finishRounded_toNat (n : Normalized) (he : n.exponent.toNat ≤ 254) :
    (finishRounded n).toNat = roundLines n.sign.toNat n.sum.toNat n.exponent.toNat := by
  have hlt := (incrementedSignificand n.sum).isLt
  have hcarry := extractBit_eq_one_iff (incrementedSignificand n.sum) 24
  simp only [finishRounded, roundSum, checkExponent, roundLines, ← incrementedSignificand_toNat_eq_lines]
  generalize incrementedSignificand n.sum = m at *
  by_cases hc : m.toNat / 2 ^ 24 = 1
  · rw [if_pos (hcarry.mpr (by omega)), if_pos hc]
    by_cases h255 : n.exponent.toNat + 1 = 255
    · simp only [if_pos h255, infinityOf_toNat]
    · have hexp : (BitVec.ofNat 8 (n.exponent.toNat + 1)).toNat = n.exponent.toNat + 1 := by
        rw [BitVec.toNat_ofNat]; omega
      have hsig : (m.extractLsb' 1 24).toNat = m.toNat / 2 := by
        rw [BitVec.extractLsb'_toNat, Nat.shiftRight_eq_div_pow]; omega
      simp only [if_neg h255, encodeResult_toNat, hexp, hsig]
  · have hsig : (m.extractLsb' 0 24).toNat = m.toNat := by
      rw [BitVec.extractLsb'_toNat, Nat.shiftRight_zero]; omega
    rw [if_neg (fun h => hc (by have := hcarry.mp h; omega)), if_neg hc]
    simp only [encodeResult_toNat, hsig]

/-- The jammed right shift of the normalizer as a number (R94). -/
theorem jamRightByOne_toNat (s : BitVec 28) :
    (s.extractLsb' 2 26 ++ (s.extractLsb' 1 1 ||| s.extractLsb' 0 1) : BitVec (26 + 1)).toNat =
      s.toNat / 4 * 2 + ((s.toNat / 2 % 2) ||| (s.toNat % 2)) := by
  have hs := s.isLt
  rw [BitVec.toNat_append, ← Nat.shiftLeft_add_eq_or_of_lt (BitVec.isLt _), BitVec.toNat_or, extractBit_toNat,
    extractBit_toNat, BitVec.extractLsb'_toNat, Nat.shiftRight_eq_div_pow, Nat.shiftLeft_eq,
    Nat.mod_eq_of_lt (by omega)]
  simp

/-- Normalizer, rounder and encoder are the listing's lines of those names (R94 to R104). -/
theorem finishSum_toNat (c : Combined) (hcarry : c.carry = 1 ↔ 2 ^ 27 ≤ c.sum.toNat) (he : c.exponent.toNat ≤ 254) :
    (finishSum c).toNat = normalizeLines c.sign.toNat c.sum.toNat c.exponent.toNat := by
  have hs := c.sum.isLt
  unfold normalizeLines
  by_cases hc : c.carry = 1
  · have h27 := hcarry.mp hc
    rw [if_pos (by omega)]
    by_cases h255 : c.exponent.toNat + 1 = 255
    · have hov : normalizeSum c = .overflow c.sign := by
        rw [normalizeSum, if_pos hc, checkExponent, if_pos h255]
      rw [if_pos h255, finishSum_of_overflow hov, infinityOf_toNat]
    · have hin := finishSum_of_inRange (c := c) (by rw [normalizeSum, if_pos hc, checkExponent, if_neg h255])
      have hexp : (BitVec.ofNat 8 (c.exponent.toNat + 1)).toNat = c.exponent.toNat + 1 := by
        rw [BitVec.toNat_ofNat]; omega
      rw [if_neg h255, hin, finishRounded_toNat _ (by rw [hexp]; omega), hexp]
      exact congrArg (roundLines c.sign.toNat · (c.exponent.toNat + 1)) (jamRightByOne_toNat c.sum)
  · have h27 : c.sum.toNat < 2 ^ 27 := Nat.lt_of_not_le (mt hcarry.mpr hc)
    obtain ⟨n, hn, hsign, hexp, hsum, -⟩ := normalizeSum_of_no_carry hc h27
    have hcount : leftShiftCount c = min (lzcNat c.sum.toNat) (c.exponent.toNat - 1) := by
      rw [leftShiftCount, lzc27_eq_lzcNat, BitVec.toNat_setWidth, Nat.mod_eq_of_lt h27]
    rw [if_neg (by omega), finishSum_of_inRange hn, finishRounded_toNat n (by omega), hsign, hexp, hsum, hcount]

/-! ### Magnitude engine and aligner -/

/-- What the general path makes of the magnitude engine's output (R91, R93). -/
def finishCombined : Option Combined → Word
  | none => zeroOf 0
  | some c => finishSum c

theorem generalResult_eq_finishCombined (a b : Word) :
    generalResult a b = finishCombined
      (combineMagnitudes (alignOperands (decodeFields a) (decodeFields b)) (signField a) (signField b)) := by
  unfold generalResult finishCombined
  rfl

/-- The magnitude engine and what follows are the listing's "Magnitude engine" lines and what follows (R89 to R93). -/
theorem finishCombined_toNat (al : AlignedOperands) (sa sb : BitVec 1) (he : al.commonExponent.toNat ≤ 254) :
    (finishCombined (combineMagnitudes al sa sb)).toNat =
      combineLines sa.toNat sb.toNat al.sigA.toNat al.sigB.toNat al.commonExponent.toNat := by
  rcases combineMagnitudes_cases al sa sb with ⟨c, hc, hexp, hcarry, hcase⟩ | ⟨hc, hs, hAB⟩
  · have hfinish := finishSum_toNat c hcarry (by rw [hexp]; exact he)
    rw [hc, combineLines]
    refine hfinish.trans ?_
    rw [hexp]
    rcases hcase with ⟨hs, -, hsign, hsum⟩ | ⟨hs, -, hlt, hsign, hsum⟩ | ⟨hs, -, hlt, hsign, hsum⟩
    · rw [if_pos (congrArg _ hs), hsign, hsum]
    · rw [if_neg (mt BitVec.toNat_inj.mp hs), if_pos hlt, hsign, hsum]
    · rw [if_neg (mt BitVec.toNat_inj.mp hs), if_neg (by omega), if_pos hlt, hsign, hsum]
  · rw [hc, combineLines, if_neg (mt BitVec.toNat_inj.mp hs), hAB, if_neg (lt_irrefl _), if_neg (lt_irrefl _)]
    rfl

/-- The general path is the listing's "General path" lines (R53, R77). -/
theorem generalResult_toNat {a b : Word} (ha : isFinite a = true) (hb : isFinite b = true) :
    (generalResult a b).toNat =
      alignLines (signField a).toNat (exponentField a).toNat (fractionField a).toNat
        (signField b).toNat (exponentField b).toNat (fractionField b).toNat := by
  have hzero (x : Word) : (exponentField x).toNat = 0 ↔ exponentField x = 0 := BitVec.toNat_inj (y := 0#8)
  have hea := effectiveExponent_le a ha
  have heb := effectiveExponent_le b hb
  have hma := workingSignificand_lt a
  have hmb := workingSignificand_lt b
  simp only [alignLines, hzero, ← workingSignificand_toNat, ← effectiveExponent_toNat]
  rw [generalResult_eq_finishCombined]
  by_cases hle : (effectiveExponent (decodeFields b)).toNat ≤ (effectiveExponent (decodeFields a)).toNat
  · obtain ⟨hE, hA, hB⟩ := alignOperands_of_le hle
    rw [if_pos hle, finishCombined_toNat _ _ _ (by rw [hE]; exact hea), hE, hA, hB,
      jamNat_eq_oddQuotient _ (by omega)]
  · obtain ⟨hE, hA, hB⟩ := alignOperands_of_lt (Nat.lt_of_not_le hle)
    rw [if_neg hle, finishCombined_toNat _ _ _ (by rw [hE]; exact heb), hE, hA, hB,
      jamNat_eq_oddQuotient _ (by omega)]

/-! ### Dispatch -/

section
variable {a b : Word}

/-- Line 1 (R69, R70). -/
theorem addFloat32_of_nan_left (ha : classify a = .nan) : addFloat32 a b = a := by
  simp [addFloat32, addFloat32With, dispatchLine, ha, nanResult, Config.params]

/-- Line 2 (R69). -/
theorem addFloat32_of_nan_right (ha : classify a ≠ .nan) (hb : classify b = .nan) : addFloat32 a b = b := by
  simp [addFloat32, addFloat32With, dispatchLine, ha, hb]

/-- Line 3 (R72, R73). -/
theorem addFloat32_of_infinities (ha : classify a = .infinity) (hb : classify b = .infinity) :
    addFloat32 a b = if signField a = signField b then a else 0x7FC00000 := by
  simp [addFloat32, addFloat32With, dispatchLine, ha, hb, infinitiesResult, Config.params]

/-- Line 4 (R74). -/
theorem addFloat32_of_infinity_left (ha : classify a = .infinity) (hb : isFinite b = true) : addFloat32 a b = a := by
  obtain ⟨hinf, hnan⟩ := (isFinite_iff_class b).mp hb
  simp [addFloat32, addFloat32With, dispatchLine, ha, hinf, hnan]

/-- Line 5 (R74). -/
theorem addFloat32_of_infinity_right (ha : isFinite a = true) (hb : classify b = .infinity) : addFloat32 a b = b := by
  obtain ⟨hinf, hnan⟩ := (isFinite_iff_class a).mp ha
  simp [addFloat32, addFloat32With, dispatchLine, hb, hinf, hnan]

/-- Line 6 (R75). -/
theorem addFloat32_of_zeros (ha : classify a = .zero) (hb : classify b = .zero) :
    addFloat32 a b = zeroOf (signField a &&& signField b) := by
  simp [addFloat32, addFloat32With, dispatchLine, ha, hb, zerosResult]

/-- Line 7 (R76). -/
theorem addFloat32_of_zero_left (ha : classify a = .zero) (hb : isFiniteNonzero b = true) : addFloat32 a b = b := by
  rcases (isFiniteNonzero_iff b).mp hb with hb | hb <;> simp [addFloat32, addFloat32With, dispatchLine, ha, hb]

/-- Line 8 (R76). -/
theorem addFloat32_of_zero_right (ha : isFiniteNonzero a = true) (hb : classify b = .zero) : addFloat32 a b = a := by
  rcases (isFiniteNonzero_iff a).mp ha with ha | ha <;> simp [addFloat32, addFloat32With, dispatchLine, ha, hb]

/-- Line 9 (R77). -/
theorem addFloat32_of_finite_nonzero (ha : isFiniteNonzero a = true) (hb : isFiniteNonzero b = true) :
    addFloat32 a b = generalResult a b := by
  rcases (isFiniteNonzero_iff a).mp ha with ha | ha <;> rcases (isFiniteNonzero_iff b).mp hb with hb | hb <;>
    simp [addFloat32, addFloat32With, dispatchLine, ha, hb]

end

/-! The conditions of the listing, by class (R41). -/

theorem nan_condition_iff (x : Word) :
    (exponentField x).toNat = 255 ∧ (fractionField x).toNat ≠ 0 ↔ classify x = .nan := by
  rw [classify_eq_nan]
  exact and_congr (BitVec.toNat_inj (y := 255#8)) (not_congr (BitVec.toNat_inj (y := 0#23)))

theorem zero_condition_iff (x : Word) :
    (exponentField x).toNat = 0 ∧ (fractionField x).toNat = 0 ↔ classify x = .zero := by
  rw [classify_eq_zero]
  exact and_congr (BitVec.toNat_inj (y := 0#8)) (BitVec.toNat_inj (y := 0#23))

theorem not_finite_condition_iff (x : Word) : (exponentField x).toNat = 255 ↔ ¬isFinite x = true := by
  rw [isFinite_iff, not_not]
  exact BitVec.toNat_inj (y := 255#8)

/-- A finite pattern that is no Zero is a Subnormal or a Normal (R41). -/
theorem isFiniteNonzero_of_ne_zero {x : Word} (hx : isFinite x = true) (h0 : classify x ≠ .zero) :
    isFiniteNonzero x = true := by
  rw [isFiniteNonzero_iff_fields, ← isFinite_iff, ← classify_eq_zero]
  exact ⟨hx, h0⟩

/-- A pattern that is not finite and no NaN is an Infinity (R41). -/
theorem classify_eq_infinity_of_not_finite {x : Word} (hx : ¬isFinite x = true) (hn : classify x ≠ .nan) :
    classify x = .infinity := by
  by_contra hi
  exact hx ((isFinite_iff_class x).mpr ⟨hi, hn⟩)

/-- The whole of ADD is the listing of R53. -/
theorem addFloat32_toNat (a b : Word) : (addFloat32 a b).toNat = addListing a.toNat b.toNat := by
  simp only [addListing, ← signField_toNat, ← exponentField_toNat, ← fractionField_toNat, nan_condition_iff,
    zero_condition_iff]
  simp only [not_finite_condition_iff, BitVec.toNat_inj]
  split_ifs with hna hnb hinf hsign hia hib hzeros hza hzb
  · rw [addFloat32_of_nan_left hna]
  · rw [addFloat32_of_nan_right hna hnb]
  · rw [addFloat32_of_infinities (classify_eq_infinity_of_not_finite hinf.1 hna)
      (classify_eq_infinity_of_not_finite hinf.2 hnb), if_pos hsign]
  · rw [addFloat32_of_infinities (classify_eq_infinity_of_not_finite hinf.1 hna)
      (classify_eq_infinity_of_not_finite hinf.2 hnb), if_neg hsign]
    rfl
  · rw [addFloat32_of_zeros hzeros.1 hzeros.2, zeroOf, packFields_toNat, BitVec.toNat_and]
    simp
  · have hzb : classify b ≠ .zero := fun hzb => hzeros ⟨hza, hzb⟩
    rw [addFloat32_of_zero_left hza (isFiniteNonzero_of_ne_zero hib hzb)]
  · rw [addFloat32_of_zero_right (isFiniteNonzero_of_ne_zero hia hza) hzb]
  · rw [addFloat32_of_finite_nonzero (isFiniteNonzero_of_ne_zero hia hza) (isFiniteNonzero_of_ne_zero hib hzb),
      generalResult_toNat hia hib]
  · rw [addFloat32_of_infinity_right hia (classify_eq_infinity_of_not_finite hib hnb)]
  · have hb : isFinite b = true := by_contra fun hb => hinf ⟨hia, hb⟩
    rw [addFloat32_of_infinity_left (classify_eq_infinity_of_not_finite hia hna) hb]

end Sys2Proof.Machine
end

section
/-! SUPPORT. 40_add.md R56: the general path is one rounding of the exact integer sum. -/

namespace Sys2Proof.Machine

theorem infinityOf_toNat_eq_add (s : BitVec 1) : (infinityOf s).toNat = s.toNat * 2 ^ 31 + 0x7F800000 := by
  simp [infinityOf, packFields_toNat]

/-- Rounder and encoder by numbers: the sign, and the exponent and the rounded significand added up (R102 to R104). -/
theorem finishRounded_toNat_of_normalized (n : Normalized) (h1 : 1 ≤ n.exponent.toNat) (h254 : n.exponent.toNat ≤ 254)
    (hsub : n.sum.toNat < 2 ^ 26 → n.exponent.toNat = 1) :
    let p := (n.exponent.toNat - 1) * 2 ^ 23 + roundedQuotient n.sum.toNat 3
    p ≤ 0x7F800000 ∧ (finishRounded n).toNat = n.sign.toNat * 2 ^ 31 + p := by
  intro p
  rcases roundAndEncode n h1 h254 hsub with ⟨hp, hov⟩ | ⟨hp, r, hr, -, -, -, -, henc⟩
  · refine ⟨hp.le, ?_⟩
    rw [finishRounded, hov, show p = 0x7F800000 from hp]
    exact infinityOf_toNat_eq_add n.sign
  · refine ⟨hp.le, ?_⟩
    rw [finishRounded, hr]
    exact henc

/-- What the magnitude engine hands on ends in its exact sum rounded once. -/
theorem finishSum_eq_exactRne {v : Int} {c : Combined} {w d k : Nat} (h : IsEngineOutput v c w d k) :
    finishSum c = exactRne v := by
  apply BitVec.eq_of_toNat_eq
  rw [exactRne_toNat, ← h.sign]
  rcases normalize_exact h with ⟨-, -, hov, hp⟩ | ⟨n, hn, hsign, h1, h254, hsub, hp, -⟩
  · rw [finishSum_of_overflow hov, if_neg (Nat.not_lt.mpr hp)]
    exact infinityOf_toNat_eq_add c.sign
  · obtain ⟨hle, hy⟩ := finishRounded_toNat_of_normalized n h1 h254 fun hlt => (hsub hlt).1
    rw [hp] at hle hy
    rw [finishSum_of_inRange hn, hy, hsign]
    rcases hle.lt_or_eq with hlt | heq
    · rw [if_pos hlt]
    · rw [if_neg heq.not_lt, heq]

section
variable {a b : Word} (ha : isFiniteNonzero a = true) (hb : isFiniteNonzero b = true)
include ha hb

/-- An exact cancellation gives +0 (R91). -/
theorem generalResult_of_cancellation (hv : scaledValue a + scaledValue b = 0) : generalResult a b = 0x00000000 := by
  rw [generalResult_eq_finishCombined]
  rcases engine_cases ha hb with ⟨hc, -⟩ | ⟨c, w, k, -, hne, -⟩
  · rw [hc]; rfl
  · exact absurd hv hne

theorem generalResult_eq_exactRne (hv : scaledValue a + scaledValue b ≠ 0) :
    generalResult a b = exactRne (scaledValue a + scaledValue b) := by
  rw [generalResult_eq_finishCombined]
  rcases engine_cases ha hb with ⟨-, h0⟩ | ⟨c, w, k, hc, -, hout⟩
  · exact absurd h0 hv
  · rw [hc]; exact finishSum_eq_exactRne hout

end

end Sys2Proof.Machine
end

section
/-! SUPPORT. 40_add.md R56: the integer rounding `exactRne` gives the nearest pattern, ties to even. Two neighbouring
magnitudes enclose the number; the rounding takes the nearer one, and every other pattern is no nearer. -/

namespace Sys2Proof.Machine

/-! ### The two patterns around a number -/

/-- Where the kept bits of `n` start (`roundedPattern`). -/
def droppedBits (n : Nat) : Nat := n.log2 - 23

/-- The largest pattern, with an unbounded exponent, whose magnitude is at most `n` (`magnitude_of_floorPattern`). -/
def floorPattern (n : Nat) : Nat := droppedBits n * 2 ^ 23 + n / 2 ^ droppedBits n

theorem roundedPattern_eq (n : Nat) :
    roundedPattern n = droppedBits n * 2 ^ 23 + roundedQuotient n (droppedBits n) := rfl

/-- At most 24 bits are kept, and all 24 where any is dropped. -/
theorem keptBits_bounds {n : Nat} (hn : n ≠ 0) :
    (droppedBits n = 0 ∨ 2 ^ 23 ≤ n / 2 ^ droppedBits n) ∧ n / 2 ^ droppedBits n < 2 ^ 24 := by
  have hlow : 2 ^ n.log2 ≤ n := Nat.log2_self_le hn
  have hhigh : n < 2 ^ (n.log2 + 1) := Nat.lt_log2_self
  unfold droppedBits
  constructor
  · by_cases h : n.log2 ≤ 23
    · exact .inl (by omega)
    · right
      rw [Nat.le_div_iff_mul_le (Nat.two_pow_pos _), ← pow_add, show 23 + (n.log2 - 23) = n.log2 by omega]
      exact hlow
  · rw [Nat.div_lt_iff_lt_mul (Nat.two_pow_pos _), ← pow_add]
    exact hhigh.trans_le (Nat.pow_le_pow_right (by norm_num) (by omega))

theorem magnitude_of_floorPattern {n : Nat} (hn : n ≠ 0) :
    magnitudeOfPattern (floorPattern n) + n % 2 ^ droppedBits n = n := by
  obtain ⟨hnormal, hlt⟩ := keptBits_bounds hn
  rw [floorPattern, magnitudeOfPattern_add hnormal hlt.le]
  exact Nat.div_add_mod' n _

theorem magnitude_of_floorPattern_succ {n : Nat} (hn : n ≠ 0) :
    magnitudeOfPattern (floorPattern n + 1) + n % 2 ^ droppedBits n = n + 2 ^ droppedBits n := by
  obtain ⟨hnormal, hlt⟩ := keptBits_bounds hn
  have hdiv := Nat.div_add_mod' n (2 ^ droppedBits n)
  rw [floorPattern, Nat.add_assoc, magnitudeOfPattern_add (hnormal.imp_right (by omega)) (by omega), Nat.add_mul]
  omega

/-- The rounding takes one of the two neighbours: the nearer, or the even one in a tie. -/
theorem roundedPattern_cases (n : Nat) :
    let r := n % 2 ^ droppedBits n
    (roundedPattern n = floorPattern n ∧ 2 * r ≤ 2 ^ droppedBits n ∧
      (2 * r = 2 ^ droppedBits n → roundedPattern n % 2 = 0)) ∨
    (roundedPattern n = floorPattern n + 1 ∧ 2 ^ droppedBits n ≤ 2 * r ∧
      (2 * r = 2 ^ droppedBits n → roundedPattern n % 2 = 0)) := by
  intro r
  simp only [roundedPattern_eq, roundedQuotient, floorPattern, r]
  split_ifs <;> omega

/-- The distance between the magnitude of the pattern `p` and the number `n`. -/
def patternDistance (p n : Nat) : Nat := ((magnitudeOfPattern p : ℤ) - n).natAbs

/-- `roundedPattern` is nearest among all patterns, ties to even, with an unbounded exponent. -/
theorem roundedPattern_nearest {n : Nat} (hn : n ≠ 0) (q : Nat) :
    patternDistance (roundedPattern n) n ≤ patternDistance q n ∧
      (q ≠ roundedPattern n → patternDistance q n = patternDistance (roundedPattern n) n →
        roundedPattern n % 2 = 0) := by
  have hr : n % 2 ^ droppedBits n < 2 ^ droppedBits n := Nat.mod_lt _ (Nat.two_pow_pos _)
  have hfloor := magnitude_of_floorPattern hn
  have hsucc := magnitude_of_floorPattern_succ hn
  have hmono := magnitudeOfPattern_strictMono
  have hcases := roundedPattern_cases n
  have hside : q < floorPattern n ∧ magnitudeOfPattern q < magnitudeOfPattern (floorPattern n) ∨ q = floorPattern n ∨
      q = floorPattern n + 1 ∨
      floorPattern n + 1 < q ∧ magnitudeOfPattern (floorPattern n + 1) < magnitudeOfPattern q := by
    rw [hmono.lt_iff_lt, hmono.lt_iff_lt]
    omega
  unfold patternDistance
  generalize 2 ^ droppedBits n = u at *
  rcases hcases with ⟨hp, hle, heven⟩ | ⟨hp, hle, heven⟩ <;> rw [hp] at heven ⊢ <;>
    rcases hside with ⟨hq, hlt⟩ | rfl | rfl | ⟨hq, hlt⟩ <;> omega

end Sys2Proof.Machine
end

section
/-! SUPPORT. 40_add.md R56: `exactRne` is `RNE`, the overflow threshold included. -/

namespace Sys2Proof.Machine

/-! ### The overflow threshold -/

theorem magnitude_of_largest_finite : magnitudeOfPattern 0x7F7FFFFF = (2 ^ 24 - 1) * 2 ^ 253 :=
  magnitudeOfPattern_add (k := 253) (q := 2 ^ 24 - 1) (.inr (by norm_num)) (by norm_num)

theorem magnitude_of_infinity_pattern : magnitudeOfPattern 0x7F800000 = 2 ^ 24 * 2 ^ 253 :=
  magnitudeOfPattern_add (k := 253) (q := 2 ^ 24) (.inr (by norm_num)) (le_refl _)

/-- The rounded exponent reaches 255 from the overflow threshold on, here in units of `2^-149`: the tie between the largest
finite pattern and `2^128` goes up, because that pattern is odd (R56). -/
theorem roundedPattern_overflow_iff {n : Nat} (hn : n ≠ 0) :
    0x7F800000 ≤ roundedPattern n ↔ (2 ^ 25 - 1) * 2 ^ 252 ≤ n := by
  have hmax := magnitude_of_largest_finite
  have hinf := magnitude_of_infinity_pattern
  have hmono := magnitudeOfPattern_strictMono.monotone
  constructor
  · intro hp
    have hle := hmono hp
    have hnear := (roundedPattern_nearest hn 0x7F7FFFFF).1
    unfold patternDistance at hnear
    omega
  · intro hge
    by_contra hp
    have hle : magnitudeOfPattern (roundedPattern n) ≤ magnitudeOfPattern 0x7F7FFFFF := hmono (by omega)
    obtain ⟨hnear, htie⟩ := roundedPattern_nearest hn 0x7F800000
    have hdist : patternDistance 0x7F800000 n = patternDistance (roundedPattern n) n := by
      unfold patternDistance at hnear ⊢
      omega
    have heq : roundedPattern n = 0x7F7FFFFF := by
      refine magnitudeOfPattern_strictMono.injective ?_
      unfold patternDistance at hdist
      omega
    have := htie (by omega) hdist
    omega

theorem overflowThreshold_le_iff (n : Nat) : overflowThreshold ≤ (n : ℚ) / 2 ^ 149 ↔ (2 ^ 25 - 1) * 2 ^ 252 ≤ n := by
  have hscale : overflowThreshold * 2 ^ 149 = (((2 ^ 25 - 1) * 2 ^ 252 : ℕ) : ℚ) := by
    norm_num [overflowThreshold]
  rw [le_div_iff₀ (by positivity), hscale, Nat.cast_le]

/-! ### Values in units of `2^-149` -/

theorem abs_scaled (v : Int) : |(v : ℚ) / 2 ^ 149| = (v.natAbs : ℚ) / 2 ^ 149 := by
  rw [abs_div, abs_of_pos (by positivity : (0 : ℚ) < 2 ^ 149), Nat.cast_natAbs, Int.cast_abs]

theorem signOfValue_scaled (v : Int) : signOfValue ((v : ℚ) / 2 ^ 149) = signOfSum v := by
  have hneg : (v : ℚ) / 2 ^ 149 < 0 ↔ v < 0 := by
    rw [div_lt_iff₀ (by positivity), zero_mul, Int.cast_lt_zero]
  simp only [signOfValue, signOfSum, hneg]

theorem magnitudeDistance_scaled (z : Word) (v : Int) :
    magnitudeDistance z ((v : ℚ) / 2 ^ 149) = (patternDistance (z.toNat % 2 ^ 31) v.natAbs : ℚ) / 2 ^ 149 := by
  have hdist : (patternDistance (z.toNat % 2 ^ 31) v.natAbs : ℚ) = |(scaledMagnitude z : ℚ) - (v.natAbs : ℚ)| := by
    rw [patternDistance, scaledMagnitude_eq, Nat.cast_natAbs, Int.cast_abs, Int.cast_sub, Int.cast_natCast,
      Int.cast_natCast]
  have hunit : (0 : ℚ) < 2 ^ 149 := by positivity
  rw [magnitudeDistance, abs_value_eq, abs_scaled, ← sub_div, abs_div, abs_of_pos hunit, hdist]

/-! ### The integer rounding -/

theorem exactRne_of_overflow {v : Int} (h : 0x7F800000 ≤ roundedPattern v.natAbs) :
    exactRne v = infinityOf (signOfSum v) := by
  apply BitVec.eq_of_toNat_eq
  rw [exactRne_toNat, if_neg (Nat.not_lt.mpr h), infinityOf_toNat_eq_add]

/-- A pattern below the infinities is finite, and its fields are those of its number. -/
theorem finite_of_toNat {y : Word} {s : BitVec 1} {p : Nat} (hp : p < 0x7F800000) (hy : y.toNat = s.toNat * 2 ^ 31 + p) :
    isFinite y = true ∧ signField y = s ∧ y.toNat % 2 ^ 31 = p := by
  refine ⟨?_, BitVec.eq_of_toNat_eq ?_, by omega⟩
  · by_contra hinf
    have he := (not_finite_condition_iff y).mpr hinf
    rw [exponentField_toNat] at he
    omega
  · rw [signField_toNat]
    omega

/-- Equal magnitude bits and equal signs are equal patterns. -/
theorem word_eq_of_sign_of_magnitude {y z : Word} (hs : signField z = signField y)
    (hm : z.toNat % 2 ^ 31 = y.toNat % 2 ^ 31) : z = y := by
  have hsign := congrArg BitVec.toNat hs
  rw [signField_toNat, signField_toNat] at hsign
  exact BitVec.eq_of_toNat_eq (by omega)

/-- Below the threshold the rounded pattern is the nearest finite one, ties to even (R56). -/
theorem exactRne_isNearestEven {v : Int} (hv : v ≠ 0) (hlt : roundedPattern v.natAbs < 0x7F800000) :
    IsNearestEven ((v : ℚ) / 2 ^ 149) (exactRne v) := by
  have hy := exactRne_toNat v
  rw [if_pos hlt] at hy
  obtain ⟨hfin, hsign, hmag⟩ := finite_of_toNat hlt hy
  have hunit : (0 : ℚ) < 2 ^ 149 := by positivity
  unfold IsNearestEven
  rw [signOfValue_scaled]
  refine ⟨hfin, hsign, fun z _ hz => ?_⟩
  obtain ⟨hnear, htie⟩ := roundedPattern_nearest (Int.natAbs_ne_zero.mpr hv) (z.toNat % 2 ^ 31)
  rw [magnitudeDistance_scaled, magnitudeDistance_scaled, hmag, div_le_div_iff_of_pos_right hunit,
    div_left_inj' hunit.ne', Nat.cast_le, Nat.cast_inj]
  refine ⟨hnear, fun hne hdist => ?_⟩
  have heven := htie (fun hp => hne (word_eq_of_sign_of_magnitude (hz.trans hsign.symm) (hp.trans hmag.symm))) hdist
  rw [BitVec.getLsbD, Nat.testBit_zero, decide_eq_false_iff_not]
  omega

/-- The integer rounding is `RNE` of R56. -/
theorem exactRne_isRne {v : Int} (hv : v ≠ 0) : IsRne ((v : ℚ) / 2 ^ 149) (exactRne v) := by
  have hthreshold : overflowThreshold ≤ |(v : ℚ) / 2 ^ 149| ↔ 0x7F800000 ≤ roundedPattern v.natAbs := by
    rw [abs_scaled, overflowThreshold_le_iff, roundedPattern_overflow_iff (Int.natAbs_ne_zero.mpr hv)]
  unfold IsRne
  by_cases h : 0x7F800000 ≤ roundedPattern v.natAbs
  · rw [if_pos (hthreshold.mpr h), signOfValue_scaled]
    exact exactRne_of_overflow h
  · rw [if_neg (mt hthreshold.mp h)]
    exact exactRne_isNearestEven hv (Nat.lt_of_not_le h)

/-! ### A finite pattern rounds to itself -/

theorem roundedPattern_magnitudeOfPattern (p : Nat) : roundedPattern (magnitudeOfPattern p) = p := by
  by_cases h : p < 2 ^ 23
  · rw [magnitudeOfPattern, if_pos h, roundedPattern_of_small (by omega)]
  · obtain ⟨k, q, hq1, hq2, rfl⟩ : ∃ k q, 2 ^ 23 ≤ q ∧ q < 2 ^ 24 ∧ p = k * 2 ^ 23 + q :=
      ⟨p / 2 ^ 23 - 1, 2 ^ 23 + p % 2 ^ 23, by omega, by omega, by omega⟩
    have hround := roundedQuotient_scale q 0 k
    rw [roundedQuotient_zero, Nat.zero_add] at hround
    rw [magnitudeOfPattern_add (.inr hq1) hq2.le, roundedPattern_of_range (k := k), hround]
    · rw [Nat.add_comm, pow_add]; exact Nat.mul_le_mul_right _ hq1
    · rw [Nat.add_comm, pow_add]; exact Nat.mul_lt_mul_of_pos_right hq2 (Nat.two_pow_pos k)

theorem natAbs_scaledValue (x : Word) : (scaledValue x).natAbs = scaledMagnitude x := by
  unfold scaledValue; split_ifs <;> simp

theorem signOfSum_scaledValue {x : Word} (h : 0 < scaledMagnitude x) : signOfSum (scaledValue x) = signField x := by
  unfold signOfSum scaledValue
  rcases sign_cases (signField x) with hs | hs <;> rw [hs] <;> simp
  omega

theorem exactRne_scaledValue {x : Word} (hx : isFiniteNonzero x = true) : exactRne (scaledValue x) = x := by
  have hfinite := ((isFiniteNonzero_iff_fields x).mp hx).1
  have hexp : ¬(exponentField x).toNat = 255 := by
    rw [not_finite_condition_iff, not_not, isFinite_iff]; exact hfinite
  have hlt := x.isLt
  rw [exponentField_toNat] at hexp
  apply BitVec.eq_of_toNat_eq
  rw [exactRne_toNat, natAbs_scaledValue, scaledMagnitude_eq, roundedPattern_magnitudeOfPattern,
    signOfSum_scaledValue (scaledMagnitude_pos hx), signField_toNat, if_pos (by omega)]
  omega

end Sys2Proof.Machine
end

section
/-! SUPPORT. 10_state.md R23: the output is the correct sum of what is on the input ports, in every state. -/

namespace Sys2Proof.Machine

/-! ### Zeros -/

theorem isFinite_of_zero {x : Word} (h : classify x = .zero) : isFinite x = true := by
  rw [isFinite_iff_class, h]
  decide

theorem isFinite_of_isFiniteNonzero {x : Word} (h : isFiniteNonzero x = true) : isFinite x = true :=
  (isFinite_iff x).mpr ((isFiniteNonzero_iff_fields x).mp h).1

/-- The Zeros are +0 and -0 (R41, R44). -/
theorem eq_zeroOf_of_zero {x : Word} (h : classify x = .zero) : x = zeroOf (signField x) := by
  obtain ⟨he, hf⟩ := (classify_eq_zero x).mp h
  rw [zeroOf, ← he, ← hf, packFields_fields]

theorem zeroOf_toNat (s : BitVec 1) : (zeroOf s).toNat = s.toNat * 2 ^ 31 := by
  simp [zeroOf, packFields_toNat]

theorem scaledValue_of_zero {x : Word} (h : classify x = .zero) : scaledValue x = 0 := by
  have hmag : scaledMagnitude x = 0 := by
    rw [eq_zeroOf_of_zero h, scaledMagnitude_eq, zeroOf_toNat, Nat.mul_mod_left]
    rfl
  rw [scaledValue_eq, hmag, Nat.cast_zero, mul_zero]

theorem scaledValue_ne_zero {x : Word} (h : isFiniteNonzero x = true) : scaledValue x ≠ 0 := by
  rw [← Int.natAbs_ne_zero, natAbs_scaledValue]
  exact (scaledMagnitude_pos h).ne'

/-- -0 is no Subnormal and no Normal. -/
theorem ne_negativeZero_of_finite_nonzero {x : Word} (h : isFiniteNonzero x = true) : x ≠ 0x80000000 := by
  rintro rfl
  exact absurd h (by decide)

/-- Two Zeros have -0 as their sum where both are -0 (R57, R75). -/
theorem addFloat32_of_zeros_eq {a b : Word} (ha : classify a = .zero) (hb : classify b = .zero) :
    addFloat32 a b = if a = 0x80000000 ∧ b = 0x80000000 then 0x80000000 else 0x00000000 := by
  obtain ⟨sa, rfl⟩ : ∃ s, a = zeroOf s := ⟨_, eq_zeroOf_of_zero ha⟩
  obtain ⟨sb, rfl⟩ : ∃ s, b = zeroOf s := ⟨_, eq_zeroOf_of_zero hb⟩
  rw [addFloat32_of_zeros ha hb]
  rcases sign_cases sa with rfl | rfl <;> rcases sign_cases sb with rfl | rfl <;> decide

/-! ### Finite operands -/

/-- The exact sum as the value-level rules have it, from the sum in units of `2^-149`. -/
theorem isFiniteSum_of_exactRne {a b y : Word}
    (hzero : scaledValue a + scaledValue b = 0 →
      y = if a = 0x80000000 ∧ b = 0x80000000 then 0x80000000 else 0x00000000)
    (hround : scaledValue a + scaledValue b ≠ 0 → y = exactRne (scaledValue a + scaledValue b)) :
    IsFiniteSum a b y := by
  unfold IsFiniteSum
  by_cases hv : scaledValue a + scaledValue b = 0
  · rw [if_pos ((value_add_value_eq_zero a b).mpr hv)]
    exact hzero hv
  · rw [if_neg (mt (value_add_value_eq_zero a b).mp hv), value_add_value, hround hv]
    exact exactRne_isRne hv

/-- An exact sum of 0 is +0, but -0 for two operands that are both -0 (R57). -/
theorem addFloat32_of_sum_zero {a b : Word} (ha : isFinite a = true) (hb : isFinite b = true)
    (hv : scaledValue a + scaledValue b = 0) :
    addFloat32 a b = if a = 0x80000000 ∧ b = 0x80000000 then 0x80000000 else 0x00000000 := by
  by_cases hza : classify a = .zero <;> by_cases hzb : classify b = .zero
  · exact addFloat32_of_zeros_eq hza hzb
  · rw [scaledValue_of_zero hza, zero_add] at hv
    exact absurd hv (scaledValue_ne_zero (isFiniteNonzero_of_ne_zero hb hzb))
  · rw [scaledValue_of_zero hzb, add_zero] at hv
    exact absurd hv (scaledValue_ne_zero (isFiniteNonzero_of_ne_zero ha hza))
  · have hna := isFiniteNonzero_of_ne_zero ha hza
    have hnb := isFiniteNonzero_of_ne_zero hb hzb
    rw [addFloat32_of_finite_nonzero hna hnb, generalResult_of_cancellation hna hnb hv,
      if_neg fun h => ne_negativeZero_of_finite_nonzero hna h.1]

/-- Every other sum of finite operands is the exact sum rounded once (R56). -/
theorem addFloat32_eq_exactRne {a b : Word} (ha : isFinite a = true) (hb : isFinite b = true)
    (hv : scaledValue a + scaledValue b ≠ 0) : addFloat32 a b = exactRne (scaledValue a + scaledValue b) := by
  by_cases hza : classify a = .zero <;> by_cases hzb : classify b = .zero
  · rw [scaledValue_of_zero hza, scaledValue_of_zero hzb] at hv
    exact absurd (add_zero 0) hv
  · have hnb := isFiniteNonzero_of_ne_zero hb hzb
    rw [addFloat32_of_zero_left hza hnb, scaledValue_of_zero hza, zero_add, exactRne_scaledValue hnb]
  · have hna := isFiniteNonzero_of_ne_zero ha hza
    rw [addFloat32_of_zero_right hna hzb, scaledValue_of_zero hzb, add_zero, exactRne_scaledValue hna]
  · have hna := isFiniteNonzero_of_ne_zero ha hza
    have hnb := isFiniteNonzero_of_ne_zero hb hzb
    rw [addFloat32_of_finite_nonzero hna hnb, generalResult_eq_exactRne hna hnb hv]

/-! ### NaN and Infinity -/

/-- Two infinities are the same pattern where their signs agree (R44). -/
theorem signField_eq_iff_of_infinities {a b : Word} (ha : classify a = .infinity) (hb : classify b = .infinity) :
    signField a = signField b ↔ a = b := by
  obtain ⟨hea, hfa⟩ := (classify_eq_infinity a).mp ha
  obtain ⟨heb, hfb⟩ := (classify_eq_infinity b).mp hb
  exact ⟨fun hs => word_ext hs (hea.trans heb.symm) (hfa.trans hfb.symm), congrArg signField⟩

/-- NaN absorbs, and an Infinity does what R62 says. -/
theorem addFloat32_isSpecialSum {a b : Word} (h : ¬(isFinite a = true ∧ isFinite b = true)) :
    IsSpecialSum a b (addFloat32 a b) := by
  unfold IsSpecialSum
  split_ifs with hna hnb hfa hfb hab
  · exact addFloat32_of_nan_left hna
  · exact addFloat32_of_nan_right hna hnb
  · have hib := classify_eq_infinity_of_not_finite (fun hfb => h ⟨hfa, hfb⟩) hnb
    exact addFloat32_of_infinity_right hfa hib
  · exact addFloat32_of_infinity_left (classify_eq_infinity_of_not_finite hfa hna) hfb
  all_goals
    have hia := classify_eq_infinity_of_not_finite hfa hna
    have hib := classify_eq_infinity_of_not_finite hfb hnb
    rw [addFloat32_of_infinities hia hib]
    simp only [signField_eq_iff_of_infinities hia hib, hab, if_true, if_false]

/-! ### Every state -/

/-- ADD is the correct sum by the value-level rules, for every pair of patterns (R56, R57, R61, R62). -/
theorem addFloat32_isCorrectSum (a b : Word) : IsCorrectSum a b (addFloat32 a b) := by
  unfold IsCorrectSum
  split_ifs with h
  · obtain ⟨ha, hb⟩ := h
    exact isFiniteSum_of_exactRne (addFloat32_of_sum_zero ha hb) (addFloat32_eq_exactRne ha hb)
  · exact addFloat32_isSpecialSum h

/-- R23 in one state. No hypothesis on the state: the output is a function of its inputs. -/
theorem State.output_settled (s : State) :
    s.y = addFloat32 s.a s.b ∧ s.y.toNat = addListing s.a.toNat s.b.toNat ∧ s.Correct :=
  ⟨rfl, addFloat32_toNat s.a s.b, addFloat32_isCorrectSum s.a s.b⟩

/-- Settles O3: what R23 says holds in every state, and so in the next state of every step. -/
theorem stepSettlesFromAnyState : Obligations.StepSettlesFromAnyState := by
  unfold Obligations.StepSettlesFromAnyState
  intro s
  exact ⟨s.output_settled, fun s' _ => s'.output_settled⟩

end Sys2Proof.Machine
end

section
/-! SUPPORT. 30_encoding.md R39 and R49: the decoder by bits, and every transaction word as ADD of its two halves. -/

namespace Sys2Proof.Machine

/-! ### Bits of the fields -/

section
variable (x : Word) {i : Nat}

theorem signField_getLsbD : (signField x).getLsbD 0 = x.getLsbD 31 := by
  simp [signField]

theorem exponentField_getLsbD (hi : i < 8) : (exponentField x).getLsbD i = x.getLsbD (23 + i) := by
  simp [exponentField, hi]

theorem fractionField_getLsbD (hi : i < 23) : (fractionField x).getLsbD i = x.getLsbD i := by
  simp [fractionField, hi]

end

/-- Settles O15: the bits of each field, and the fields put together again. -/
theorem decoderGivesEveryBit : Obligations.DecoderGivesEveryBit := by
  unfold Obligations.DecoderGivesEveryBit
  intro x
  exact ⟨signField_getLsbD x, fun _ => exponentField_getLsbD x, fun _ => fractionField_getLsbD x,
    (packFields_fields x).symm⟩

/-! ### Transaction words -/

theorem firstOperand_toNat (w : TxnWord) : (firstOperand w).toNat = w.toNat / 2 ^ 32 := by
  have := w.isLt
  rw [firstOperand, BitVec.extractLsb'_toNat, Nat.shiftRight_eq_div_pow]
  omega

theorem secondOperand_toNat (w : TxnWord) : (secondOperand w).toNat = w.toNat % 2 ^ 32 := by
  rw [secondOperand, BitVec.extractLsb'_toNat, Nat.shiftRight_eq_div_pow, pow_zero, Nat.div_one]

/-- R48: `a` is the high half of a transaction word and `b` the low half. -/
theorem transaction_toNat_eq_operands (w : TxnWord) :
    w.toNat = (firstOperand w).toNat * 2 ^ 32 + (secondOperand w).toNat := by
  rw [firstOperand_toNat, secondOperand_toNat, Nat.div_add_mod']

/-- The output after ADD is what the listing of R53 gives, from every state. -/
theorem State.evaluate_y_toNat (s : State) (a b : Word) : (s.evaluate a b).y.toNat = addListing a.toNat b.toNat := by
  rw [State.evaluate_y, addFloat32_toNat]

/-- Settles O12: the two operands of a word are its halves, and the datapath agrees with the listing on every pair. -/
theorem everyTransactionWordIsAdd : Obligations.EveryTransactionWordIsAdd := by
  unfold Obligations.EveryTransactionWordIsAdd
  intro w
  refine ⟨firstOperand w, secondOperand w, transaction_toNat_eq_operands w, rfl, fun s => ?_⟩
  exact ⟨_, exec_add _ _ s, s.evaluate_y_toNat _ _⟩

end Sys2Proof.Machine
end

section
/-! SUPPORT. 30_encoding.md R41 and R42: the classes by the number that the 31 magnitude bits are, which gives the pattern
ranges of the table of R41; the significand and the effective exponent of each class. -/

namespace Sys2Proof.Machine

/-! ### Classes by the magnitude bits -/

section
variable (x : Word)

theorem magnitudeField_toNat_eq_fields :
    (magnitudeField x).toNat = (exponentField x).toNat * 2 ^ 23 + (fractionField x).toNat := by
  rw [magnitudeField_toNat, exponentField_toNat, fractionField_toNat]
  omega

theorem exponentField_eq_iff (e : BitVec 8) : exponentField x = e ↔ (magnitudeField x).toNat / 2 ^ 23 = e.toNat := by
  have := (fractionField x).isLt
  rw [← BitVec.toNat_inj, magnitudeField_toNat_eq_fields]
  omega

theorem exponentField_eq_zero_iff : exponentField x = 0 ↔ (magnitudeField x).toNat / 2 ^ 23 = 0 :=
  exponentField_eq_iff x 0

theorem exponentField_eq_255_iff : exponentField x = 255 ↔ (magnitudeField x).toNat / 2 ^ 23 = 255 :=
  exponentField_eq_iff x 255

theorem fractionField_eq_zero_iff : fractionField x = 0 ↔ (magnitudeField x).toNat % 2 ^ 23 = 0 := by
  rw [magnitudeField_toNat_eq_fields, Nat.mul_add_mod_of_lt (fractionField x).isLt]
  exact (BitVec.toNat_inj (y := 0#23)).symm

theorem classify_eq_zero_iff_magnitude : classify x = .zero ↔ (magnitudeField x).toNat = 0 := by
  rw [classify_eq_zero, exponentField_eq_zero_iff, fractionField_eq_zero_iff]
  omega

theorem classify_eq_subnormal_iff_magnitude :
    classify x = .subnormal ↔ 1 ≤ (magnitudeField x).toNat ∧ (magnitudeField x).toNat ≤ 0x007FFFFF := by
  rw [classify_eq_subnormal, Ne, exponentField_eq_zero_iff, fractionField_eq_zero_iff]
  omega

theorem classify_eq_normal_iff_magnitude :
    classify x = .normal ↔ 0x00800000 ≤ (magnitudeField x).toNat ∧ (magnitudeField x).toNat ≤ 0x7F7FFFFF := by
  have := (magnitudeField x).isLt
  rw [classify_eq_normal, Ne, Ne, exponentField_eq_zero_iff, exponentField_eq_255_iff]
  omega

theorem classify_eq_infinity_iff_magnitude : classify x = .infinity ↔ (magnitudeField x).toNat = 0x7F800000 := by
  rw [classify_eq_infinity, exponentField_eq_255_iff, fractionField_eq_zero_iff]
  omega

theorem classify_eq_nan_iff_magnitude :
    classify x = .nan ↔ 0x7F800001 ≤ (magnitudeField x).toNat ∧ (magnitudeField x).toNat ≤ 0x7FFFFFFF := by
  have := (magnitudeField x).isLt
  rw [classify_eq_nan, Ne, exponentField_eq_255_iff, fractionField_eq_zero_iff]
  omega

/-- A Normal has a biased exponent in 1..254 (R41). -/
theorem classify_eq_normal_iff_exponent :
    classify x = .normal ↔ 1 ≤ (exponentField x).toNat ∧ (exponentField x).toNat ≤ 254 := by
  have := (fractionField x).isLt
  rw [classify_eq_normal_iff_magnitude, magnitudeField_toNat_eq_fields]
  omega

/-! ### The pattern columns of the table of R41 -/

/-- The two pattern columns are one range of the magnitude bits, under either sign. -/
theorem inSignedRange_iff_magnitude {lo hi : Nat} (hhi : hi < 2 ^ 31) :
    inSignedRange x lo hi = true ↔ lo ≤ (magnitudeField x).toNat ∧ (magnitudeField x).toNat ≤ hi := by
  have := x.isLt
  simp only [inSignedRange, Bool.or_eq_true, Bool.and_eq_true, decide_eq_true_eq, magnitudeField_toNat]
  omega

/-- A value of the magnitude bits belongs to two patterns, one per sign. -/
theorem magnitudeField_toNat_eq_iff {p : Nat} (hp : p < 2 ^ 31) :
    (magnitudeField x).toNat = p ↔ x = BitVec.ofNat 32 p ∨ x = BitVec.ofNat 32 (2 ^ 31 + p) := by
  have := x.isLt
  rw [← BitVec.toNat_inj, ← BitVec.toNat_inj, BitVec.toNat_ofNat, BitVec.toNat_ofNat, magnitudeField_toNat]
  omega

@[simp] theorem classify_hostNegate : classify (hostNegate x) = classify x := by
  simp [classify]

end

/-- Settles O17: the field columns are the equations of the classifier, the pattern columns follow from the class by the
magnitude bits, and `NEG` moves no exponent or fraction bit. -/
theorem classifierTable : Obligations.ClassifierTable := by
  unfold Obligations.ClassifierTable
  intro x
  refine ⟨classify_eq_zero x, classify_eq_subnormal x, classify_eq_normal_iff_exponent x, classify_eq_infinity x,
    classify_eq_nan x, ?zero, ?subnormal, ?normal, ?infinity, ?nan, classify_hostNegate x⟩
  case zero => exact (classify_eq_zero_iff_magnitude x).trans (magnitudeField_toNat_eq_iff x (by decide))
  case subnormal => rw [classify_eq_subnormal_iff_magnitude, inSignedRange_iff_magnitude x (by decide)]
  case normal => rw [classify_eq_normal_iff_magnitude, inSignedRange_iff_magnitude x (by decide)]
  case infinity => exact (classify_eq_infinity_iff_magnitude x).trans (magnitudeField_toNat_eq_iff x (by decide))
  case nan => rw [classify_eq_nan_iff_magnitude, inSignedRange_iff_magnitude x (by decide)]

/-! ### Significand and effective exponent of each class -/

section
variable {x : Word}

theorem exponentField_ne_zero_of_normal (h : classify x = .normal) : exponentField x ≠ 0 :=
  ((classify_eq_normal x).mp h).1

theorem exponentField_eq_zero_of_subnormal_or_zero (h : classify x = .subnormal ∨ classify x = .zero) :
    exponentField x = 0 := by
  rcases h with h | h
  · exact ((classify_eq_subnormal x).mp h).1
  · exact ((classify_eq_zero x).mp h).1

theorem workingSignificand_of_exponent_ne_zero (h : exponentField x ≠ 0) :
    (workingSignificand (decodeFields x)).toNat = 2 ^ 23 + (fractionField x).toNat := by
  rw [workingSignificand_toNat, if_neg h]

theorem workingSignificand_of_exponent_zero (h : exponentField x = 0) :
    (workingSignificand (decodeFields x)).toNat = (fractionField x).toNat := by
  rw [workingSignificand_toNat, if_pos h, Nat.zero_add]

theorem effectiveExponent_of_exponent_ne_zero (h : exponentField x ≠ 0) :
    effectiveExponent (decodeFields x) = exponentField x :=
  if_pos h

theorem effectiveExponent_of_exponent_zero (h : exponentField x = 0) : effectiveExponent (decodeFields x) = 1 :=
  if_neg (not_not.mpr h)

end

/-- Settles O18: a Normal is where the exponent field is not 0 (nor 255), a Subnormal or Zero where it is 0; the ranges
follow from the 23 bits of the fraction. -/
theorem significandAndEffectiveExponent : Obligations.SignificandAndEffectiveExponent := by
  unfold Obligations.SignificandAndEffectiveExponent
  intro x
  have hf := (fractionField x).isLt
  refine ⟨rfl, fun hn => ?normal, fun hs => ?small⟩
  case normal =>
    have he := exponentField_ne_zero_of_normal hn
    rw [workingSignificand_of_exponent_ne_zero he]
    exact ⟨rfl, by omega, by omega, effectiveExponent_of_exponent_ne_zero he,
      (classify_eq_normal_iff_exponent x).mp hn⟩
  case small =>
    have he := exponentField_eq_zero_of_subnormal_or_zero hs
    rw [workingSignificand_of_exponent_zero he]
    exact ⟨rfl, by omega, effectiveExponent_of_exponent_zero he⟩

end Sys2Proof.Machine
end

section
/-! SUPPORT. 30_encoding.md R52: the magnitude of a pattern that is not NaN as a strictly increasing function of its
magnitude bits, with the Infinity at the top. -/

namespace Sys2Proof.Machine

/-- The magnitude that belongs to the magnitude bits `m` of a pattern that is not NaN: infinite for an Infinity's. -/
def extendedMagnitudeOf (m : Nat) : WithTop ℚ :=
  if m = 0x7F800000 then ⊤ else ((magnitudeOfPattern m / 2 ^ 149 : ℚ) : WithTop ℚ)

theorem extendedMagnitude_eq_of_magnitude (x : Word) :
    extendedMagnitude x = extendedMagnitudeOf (magnitudeField x).toNat := by
  simp only [extendedMagnitude, extendedMagnitudeOf, classify_eq_infinity_iff_magnitude, abs_value_eq,
    scaledMagnitude_eq, magnitudeField_toNat]

theorem extendedMagnitudeOf_strictMonoOn : StrictMonoOn extendedMagnitudeOf (Set.Iic 0x7F800000) := by
  intro m _ n hn hmn
  have hn : n ≤ 0x7F800000 := hn
  have hm : m ≠ 0x7F800000 := by omega
  rw [extendedMagnitudeOf, extendedMagnitudeOf, if_neg hm]
  split_ifs with htop
  · exact WithTop.coe_lt_top _
  · have hlt : (magnitudeOfPattern m : ℚ) < magnitudeOfPattern n := Nat.cast_lt.mpr (magnitudeOfPattern_strictMono hmn)
    exact WithTop.coe_lt_coe.mpr (div_lt_div_of_pos_right hlt (by positivity))

/-- The magnitude bits of a pattern that is not NaN are at most those of an Infinity (R41). -/
theorem magnitudeField_le_of_not_nan {x : Word} (h : classify x ≠ .nan) : (magnitudeField x).toNat ≤ 0x7F800000 := by
  have := (magnitudeField x).isLt
  rw [Ne, classify_eq_nan_iff_magnitude] at h
  omega

/-- Settles O20: a strictly increasing function keeps and reflects `<` and `=`. -/
theorem magnitudesOrderAsPatterns : Obligations.MagnitudesOrderAsPatterns := by
  unfold Obligations.MagnitudesOrderAsPatterns
  intro p q hp hq
  have hp := magnitudeField_le_of_not_nan hp
  have hq := magnitudeField_le_of_not_nan hq
  rw [extendedMagnitude_eq_of_magnitude, extendedMagnitude_eq_of_magnitude, BitVec.lt_def, ← BitVec.toNat_inj]
  exact ⟨extendedMagnitudeOf_strictMonoOn.lt_iff_lt hp hq, extendedMagnitudeOf_strictMonoOn.injOn.eq_iff hp hq⟩

end Sys2Proof.Machine
end

section
/-! SUPPORT. 30_encoding.md R44 and R46: the fixed patterns of the results. -/

namespace Sys2Proof.Machine

theorem classify_infinityOf (s : BitVec 1) : classify (infinityOf s) = .infinity := by
  rw [infinityOf, classify_packFields]
  rfl

/-- Infinities of opposite sign add up to the canonical NaN (R46, R73). -/
theorem addFloat32_of_opposite_infinities {s t : BitVec 1} (h : s ≠ t) :
    addFloat32 (infinityOf s) (infinityOf t) = Config.params.canonicalNan := by
  rw [addFloat32_of_infinities (classify_infinityOf s) (classify_infinityOf t), infinityOf, infinityOf,
    signField_packFields, signField_packFields, if_neg h]
  rfl

/-- Settles O19: the patterns are evaluated, and the NaN is the sum of the infinities of sign 0 and 1 in both orders. -/
theorem fixedResultPatterns : Obligations.FixedResultPatterns := by
  unfold Obligations.FixedResultPatterns
  have hpos : infinityOf 0 = 0x7F800000 := by decide
  have hneg : infinityOf 1 = 0xFF800000 := by decide
  refine ⟨by decide, by decide, hpos, hneg, fun _ => rfl, rfl, by decide, fun s => ?_⟩
  rw [← hpos, ← hneg]
  exact ⟨_, _, exec_add _ _ s, addFloat32_of_opposite_infinities (by decide),
    exec_add _ _ s, addFloat32_of_opposite_infinities (by decide)⟩

end Sys2Proof.Machine
end

section
/-! SUPPORT. 40_add.md R53, R54 and R56: the sum as the listing and as one rounding, and the class and the sign of the
result. -/

namespace Sys2Proof.Machine

/-- Settles O21: ADD evaluates its operands, and the output then is what the listing gives. -/
theorem addWritesTheSumOfTheListing : Obligations.AddWritesTheSumOfTheListing := by
  unfold Obligations.AddWritesTheSumOfTheListing
  intro a b s
  exact ⟨_, exec_add a b s, s.evaluate_a a b, s.evaluate_b a b, s.evaluate_y_toNat a b⟩

/-! ### The fields of a rounded sum -/

/-- No number but 0 is rounded to a zero: a number of at most 24 bits is kept, and of a longer one the leading bit is. -/
theorem roundedPattern_pos {n : Nat} (hn : n ≠ 0) : 1 ≤ roundedPattern n := by
  have hfloor : 1 ≤ floorPattern n := by
    unfold floorPattern
    rcases (keptBits_bounds hn).1 with h0 | hkept
    · rw [h0, pow_zero, Nat.div_one]; omega
    · omega
  rcases roundedPattern_cases n with ⟨hp, -⟩ | ⟨hp, -⟩ <;> omega

theorem magnitudeField_exactRne (v : Int) :
    (magnitudeField (exactRne v)).toNat = min (roundedPattern v.natAbs) 0x7F800000 := by
  rw [magnitudeField_toNat, exactRne_toNat]
  split_ifs <;> omega

theorem signField_exactRne (v : Int) : signField (exactRne v) = signOfSum v := by
  apply BitVec.eq_of_toNat_eq
  rw [signField_toNat, exactRne_toNat]
  split_ifs <;> omega

theorem classify_exactRne {v : Int} (hv : v ≠ 0) :
    classify (exactRne v) = .subnormal ∨ classify (exactRne v) = .normal ∨ classify (exactRne v) = .infinity := by
  have hpos := roundedPattern_pos (Int.natAbs_ne_zero.mpr hv)
  rw [classify_eq_subnormal_iff_magnitude, classify_eq_normal_iff_magnitude, classify_eq_infinity_iff_magnitude,
    magnitudeField_exactRne]
  omega

section
variable {a b : Word} (ha : isFinite a = true) (hb : isFinite b = true)
include ha hb

/-- A sum that is not exactly zero is a Subnormal, a Normal or an Infinity (R54, R56). -/
theorem classify_addFloat32_of_sum_ne_zero (hv : value a + value b ≠ 0) :
    classify (addFloat32 a b) = .subnormal ∨ classify (addFloat32 a b) = .normal ∨
      classify (addFloat32 a b) = .infinity := by
  have hne := mt (value_add_value_eq_zero a b).mpr hv
  rw [addFloat32_eq_exactRne ha hb hne]
  exact classify_exactRne hne

/-- A sum that is not exactly zero has the sign of the exact sum (R54, R56). -/
theorem signField_addFloat32_of_sum_ne_zero (hv : value a + value b ≠ 0) :
    signField (addFloat32 a b) = signOfValue (value a + value b) := by
  rw [addFloat32_eq_exactRne ha hb (mt (value_add_value_eq_zero a b).mpr hv), signField_exactRne, value_add_value,
    signOfValue_scaled]

end

/-- Settles O26: the datapath rounds the exact integer sum once, which is `RNE`, and rounds no sum but 0 to a zero. -/
theorem sumIsRoundedToNearestEven : Obligations.SumIsRoundedToNearestEven := by
  unfold Obligations.SumIsRoundedToNearestEven
  intro a b ha hb hv
  have hne := mt (value_add_value_eq_zero a b).mpr hv
  constructor
  · rw [addFloat32_eq_exactRne ha hb hne, value_add_value]
    exact exactRne_isRne hne
  · rcases classify_addFloat32_of_sum_ne_zero ha hb hv with h | h | h <;> rw [h] <;> decide

/-- The result of two finite nonzero operands, the last line of the table of R54. -/
theorem addFloat32_class_of_finite_nonzero {a b : Word} (ha : isFiniteNonzero a = true) (hb : isFiniteNonzero b = true) :
    addFloat32 a b = 0x00000000 ∨
      ((classify (addFloat32 a b) = .subnormal ∨ classify (addFloat32 a b) = .normal ∨
        classify (addFloat32 a b) = .infinity) ∧ signField (addFloat32 a b) = signOfValue (value a + value b)) := by
  have hfa := isFinite_of_isFiniteNonzero ha
  have hfb := isFinite_of_isFiniteNonzero hb
  by_cases hv : value a + value b = 0
  · left
    rw [addFloat32_of_sum_zero hfa hfb ((value_add_value_eq_zero a b).mp hv),
      if_neg fun h => ne_negativeZero_of_finite_nonzero ha h.1]
  · exact .inr ⟨classify_addFloat32_of_sum_ne_zero hfa hfb hv, signField_addFloat32_of_sum_ne_zero hfa hfb hv⟩

/-- Settles O25: each line of the table is the line of the dispatch that its classes select (R67), and the last is the
rounding of the exact sum. -/
theorem resultClassTable : Obligations.ResultClassTable := by
  unfold Obligations.ResultClassTable
  intro a b y
  refine ⟨addFloat32_of_nan_left, addFloat32_of_nan_right, ?sameInfinities, ?oppositeInfinities,
    addFloat32_of_infinity_left, addFloat32_of_infinity_right, addFloat32_of_zeros_eq, addFloat32_of_zero_left,
    addFloat32_of_zero_right, addFloat32_class_of_finite_nonzero⟩
  case sameInfinities => exact fun ha hb hs => (addFloat32_of_infinities ha hb).trans (if_pos hs)
  case oppositeInfinities => exact fun ha hb hs => (addFloat32_of_infinities ha hb).trans (if_neg hs)

end Sys2Proof.Machine
end

section
/-! SUPPORT. 40_add.md R57 to R60: exact zero sums, commutativity, and the identities with the two zeros. -/

namespace Sys2Proof.Machine

/-! ### Sums that are exactly zero -/

/-- `NEG` negates the exact value: it moves no magnitude bit (R51). -/
theorem scaledValue_hostNegate (x : Word) : scaledValue (hostNegate x) = -scaledValue x := by
  have hmag : scaledMagnitude (hostNegate x) = scaledMagnitude x := by
    rw [scaledMagnitude_eq, scaledMagnitude_eq, hostNegate_toNat]
    congr 1
    split_ifs <;> omega
  have hsign := signField_hostNegate_toNat x
  rw [scaledValue, scaledValue, hmag]
  simp only [← BitVec.toNat_inj, hsign]
  rcases sign_cases (signField x) with h | h <;> simp [h]

@[simp] theorem isFinite_hostNegate (x : Word) : isFinite (hostNegate x) = isFinite x := by
  simp [isFinite]

theorem hostNegate_ne (x : Word) : hostNegate x ≠ x := by
  rw [Ne, ← BitVec.toNat_inj, hostNegate_toNat]
  split_ifs <;> omega

/-- Settles O30: an exact sum of 0 is -0 for two -0 only, and `x` and its negation, whose exact sum is 0, are never the
same pattern. -/
theorem exactZeroSums : Obligations.ExactZeroSums := by
  unfold Obligations.ExactZeroSums
  refine ⟨fun a b ha hb hv => addFloat32_of_sum_zero ha hb ((value_add_value_eq_zero a b).mp hv), fun x hx => ?_⟩
  rw [addFloat32_of_sum_zero hx ((isFinite_hostNegate x).trans hx) (by rw [scaledValue_hostNegate, add_neg_cancel]),
    if_neg fun h => hostNegate_ne x (h.2.trans h.1.symm)]

/-! ### Commutativity -/

section
variable {a b : Word}

/-- Finite operands commute because their exact sum does. -/
theorem addFloat32_comm_of_finite (ha : isFinite a = true) (hb : isFinite b = true) :
    addFloat32 a b = addFloat32 b a := by
  by_cases hv : scaledValue a + scaledValue b = 0
  · rw [addFloat32_of_sum_zero ha hb hv, addFloat32_of_sum_zero hb ha (by rw [add_comm, hv])]
    simp only [and_comm]
  · rw [addFloat32_eq_exactRne ha hb hv, add_comm, addFloat32_eq_exactRne hb ha (by rwa [add_comm])]

/-- An Infinity commutes with every pattern but a NaN. -/
theorem addFloat32_comm_of_infinity (ha : classify a = .infinity) (hb : classify b ≠ .nan) :
    addFloat32 a b = addFloat32 b a := by
  by_cases hfb : isFinite b = true
  · rw [addFloat32_of_infinity_left ha hfb, addFloat32_of_infinity_right hfb ha]
  · have hib := classify_eq_infinity_of_not_finite hfb hb
    rw [addFloat32_of_infinities ha hib, addFloat32_of_infinities hib ha]
    simp only [signField_eq_iff_of_infinities ha hib, signField_eq_iff_of_infinities hib ha]
    by_cases hab : a = b
    · rw [hab]
    · rw [if_neg hab, if_neg (Ne.symm hab)]

/-- A NaN commutes with every pattern that is no NaN. -/
theorem addFloat32_comm_of_nan (ha : classify a = .nan) (hb : classify b ≠ .nan) :
    addFloat32 a b = addFloat32 b a := by
  rw [addFloat32_of_nan_left ha, addFloat32_of_nan_right hb ha]

theorem addFloat32_comm (h : ¬(classify a = .nan ∧ classify b = .nan)) : addFloat32 a b = addFloat32 b a := by
  by_cases hna : classify a = .nan
  · exact addFloat32_comm_of_nan hna fun hnb => h ⟨hna, hnb⟩
  by_cases hnb : classify b = .nan
  · exact (addFloat32_comm_of_nan hnb hna).symm
  by_cases hfa : isFinite a = true
  · by_cases hfb : isFinite b = true
    · exact addFloat32_comm_of_finite hfa hfb
    · exact (addFloat32_comm_of_infinity (classify_eq_infinity_of_not_finite hfb hnb) hna).symm
  · exact addFloat32_comm_of_infinity (classify_eq_infinity_of_not_finite hfa hna) hnb

end

/-- Settles O31: NaN, Infinity and finite operands each commute, and the first of two NaN is returned. -/
theorem additionCommutes : Obligations.AdditionCommutes := by
  unfold Obligations.AdditionCommutes
  intro a b
  exact ⟨addFloat32_comm, fun ha hb => ⟨addFloat32_of_nan_left ha, addFloat32_of_nan_left hb⟩⟩

/-! ### Zeros as the second operand -/

/-- Adding a zero gives back every pattern that is no zero, a NaN and an Infinity included (R59, R60). -/
theorem addFloat32_zero_right {a z : Word} (ha : classify a ≠ .zero) (hz : classify z = .zero) : addFloat32 a z = a := by
  by_cases hna : classify a = .nan
  · exact addFloat32_of_nan_left hna
  by_cases hfa : isFinite a = true
  · exact addFloat32_of_zero_right (isFiniteNonzero_of_ne_zero hfa ha) hz
  · exact addFloat32_of_infinity_left (classify_eq_infinity_of_not_finite hfa hna) (isFinite_of_zero hz)

theorem classify_eq_zero_iff_pattern (x : Word) : classify x = .zero ↔ x = 0x00000000 ∨ x = 0x80000000 :=
  (classify_eq_zero_iff_magnitude x).trans (magnitudeField_toNat_eq_iff x (by decide))

/-- Settles O32: only the zeros are to be looked at one by one. -/
theorem addingZeroIsIdentity : Obligations.AddingZeroIsIdentity := by
  unfold Obligations.AddingZeroIsIdentity
  intro a
  refine ⟨fun hne => ?positive, addFloat32_of_zeros_eq (by decide) (by decide), ?negative⟩
  case positive =>
    by_cases ha : classify a = .zero
    · obtain rfl := ((classify_eq_zero_iff_pattern a).mp ha).resolve_right hne
      exact addFloat32_of_zeros_eq ha ha
    · exact addFloat32_zero_right ha (by decide)
  case negative =>
    by_cases ha : classify a = .zero
    · rcases (classify_eq_zero_iff_pattern a).mp ha with rfl | rfl <;>
        exact addFloat32_of_zeros_eq ha (by decide)
    · exact addFloat32_zero_right ha (by decide)

end Sys2Proof.Machine
end

section
/-! SUPPORT. 40_add.md R61 and R62: NaN absorbs, and the rules for infinities. -/

namespace Sys2Proof.Machine

theorem addFloat32_of_nan {a b : Word} (h : classify a = .nan ∨ classify b = .nan) :
    addFloat32 a b = if classify a = .nan then a else b := by
  by_cases ha : classify a = .nan
  · rw [if_pos ha, addFloat32_of_nan_left ha]
  · rw [if_neg ha, addFloat32_of_nan_right ha (h.resolve_left ha)]

/-- Settles O33: the operand that is returned is a NaN, since `b` is one where `a` is none. -/
theorem nanAbsorbs : Obligations.NanAbsorbs := by
  unfold Obligations.NanAbsorbs
  intro a b h
  refine ⟨?_, addFloat32_of_nan h⟩
  rw [addFloat32_of_nan h]
  split_ifs with ha
  · exact ha
  · exact h.resolve_left ha

theorem addFloat32_infinityOf_self (s : BitVec 1) : addFloat32 (infinityOf s) (infinityOf s) = infinityOf s :=
  (addFloat32_of_infinities (classify_infinityOf s) (classify_infinityOf s)).trans (if_pos rfl)

/-- An Infinity absorbs every finite pattern on either side (R62, R74). -/
theorem addFloat32_infinityOf_finite (s : BitVec 1) {x : Word} (hx : isFinite x = true) :
    addFloat32 (infinityOf s) x = infinityOf s ∧ addFloat32 x (infinityOf s) = infinityOf s :=
  ⟨addFloat32_of_infinity_left (classify_infinityOf s) hx, addFloat32_of_infinity_right hx (classify_infinityOf s)⟩

/-- Settles O34: the rules for the infinities of sign 0 and of sign 1. -/
theorem infinityRules : Obligations.InfinityRules := by
  unfold Obligations.InfinityRules
  have hpos : 0x7F800000 = infinityOf 0 := by decide
  have hneg : 0xFF800000 = infinityOf 1 := by decide
  rw [hpos, hneg]
  refine ⟨addFloat32_infinityOf_self 0, addFloat32_of_opposite_infinities (by decide),
    addFloat32_of_opposite_infinities (by decide), by decide, addFloat32_infinityOf_self 1, fun x hx => ?_⟩
  obtain ⟨hposLeft, hposRight⟩ := addFloat32_infinityOf_finite 0 hx
  obtain ⟨hnegLeft, hnegRight⟩ := addFloat32_infinityOf_finite 1 hx
  exact ⟨hposLeft, hposRight, hnegLeft, hnegRight⟩

end Sys2Proof.Machine
end

section
/-! SUPPORT. 40_add.md R63 to R66: small sums are exact, and the scenarios of the source. -/

namespace Sys2Proof.Machine

/-- A number of at most 24 bits is not rounded. -/
theorem exactRne_of_small {v : Int} (hv : v.natAbs < 2 ^ 24) :
    isFinite (exactRne v) = true ∧ scaledValue (exactRne v) = v := by
  have hy := exactRne_toNat v
  rw [roundedPattern_of_small hv, if_pos (by omega)] at hy
  obtain ⟨hfinite, hsign, hmag⟩ := finite_of_toNat (by omega) hy
  have hexact := magnitudeOfPattern_add (k := 0) (.inl rfl) hv.le
  rw [Nat.zero_mul, Nat.zero_add, pow_zero, Nat.mul_one] at hexact
  refine ⟨hfinite, ?_⟩
  rw [scaledValue, hsign, scaledMagnitude_eq, hmag, hexact]
  by_cases hneg : v < 0
  · rw [signOfSum, if_pos hneg, if_pos rfl]; omega
  · rw [signOfSum, if_neg hneg, if_neg (by decide)]; omega

/-- Below `2^-126` a sum in units of `2^-149` has at most 23 bits. -/
theorem natAbs_lt_of_abs_value_lt {v : Int} (h : |(v : ℚ) / 2 ^ 149| < 2 ^ (-126 : ℤ)) : v.natAbs < 2 ^ 23 := by
  rw [abs_scaled, div_lt_iff₀ (by positivity)] at h
  have hscale : (2 : ℚ) ^ (-126 : ℤ) * 2 ^ 149 = ((2 ^ 23 : ℕ) : ℚ) := by norm_num
  rw [hscale, Nat.cast_lt] at h
  exact h

theorem addFloat32_exact_of_small {a b : Word} (ha : isFinite a = true) (hb : isFinite b = true)
    (hv : (scaledValue a + scaledValue b).natAbs < 2 ^ 24) :
    isFinite (addFloat32 a b) = true ∧ scaledValue (addFloat32 a b) = scaledValue a + scaledValue b := by
  by_cases h0 : scaledValue a + scaledValue b = 0
  · have hzero : classify (addFloat32 a b) = .zero := by
      rw [addFloat32_of_sum_zero ha hb h0]
      split_ifs <;> decide
    exact ⟨isFinite_of_zero hzero, by rw [scaledValue_of_zero hzero, h0]⟩
  · rw [addFloat32_eq_exactRne ha hb h0]
    exact exactRne_of_small hv

/-- Settles O35: a sum below `2^-126` has at most 23 significant bits, which the rounding keeps. -/
theorem tinySumsAreExact : Obligations.TinySumsAreExact := by
  unfold Obligations.TinySumsAreExact
  refine ⟨by decide, fun a b ha hb hv => ?_⟩
  rw [value_add_value] at hv
  have hlt := natAbs_lt_of_abs_value_lt hv
  obtain ⟨hfinite, hexact⟩ := addFloat32_exact_of_small ha hb (by omega)
  exact ⟨hfinite, by rw [value_eq_scaledValue, hexact, value_add_value]⟩

/-- Settles O36: the operands are concrete, and the datapath is evaluated on them. -/
theorem sourceScenarios : Obligations.SourceScenarios := by
  unfold Obligations.SourceScenarios
  have hlost : addFloat32 0x4B800000 0x3F800000 = 0x4B800000 := by decide
  have htwo : addFloat32 0x3F800000 0x3F800000 = 0x40000000 := by decide
  rw [hlost, hlost, htwo]
  decide

end Sys2Proof.Machine
end

section
/-! SUPPORT. 41_special_cases.md R67 to R78: which line of the dispatch the classes of the operands select, and what
that leaves for the aligner. -/

namespace Sys2Proof.Machine

/-! ### The line of the dispatch, for each class of one operand (R67) -/

section
variable {c : OperandClass}

/-- Line 1 (R69, R70). -/
theorem dispatchLine_nan_left (c : OperandClass) : dispatchLine .nan c = .nanA := rfl

/-- Lines 1 and 2 (R69, R70). -/
theorem dispatchLine_nan_right (c : OperandClass) :
    dispatchLine c .nan = if c = .nan then .nanA else .nanB := by
  simp [dispatchLine]

/-- Lines 3 and 4 (R72, R74). -/
theorem dispatchLine_infinity_left (hn : c ≠ .nan) :
    dispatchLine .infinity c = if c = .infinity then .bothInfinite else .infiniteA := by
  simp [dispatchLine, hn]

/-- Lines 3 and 5 (R72, R74). -/
theorem dispatchLine_infinity_right (hn : c ≠ .nan) :
    dispatchLine c .infinity = if c = .infinity then .bothInfinite else .infiniteB := by
  by_cases hi : c = .infinity <;> simp [dispatchLine, hn, hi]

/-- Lines 6 and 7 (R75, R76). -/
theorem dispatchLine_zero_left (hi : c ≠ .infinity) (hn : c ≠ .nan) :
    dispatchLine .zero c = if c = .zero then .bothZero else .zeroA := by
  simp [dispatchLine, hi, hn]

/-- Lines 6 and 8 (R75, R76). -/
theorem dispatchLine_zero_right (hi : c ≠ .infinity) (hn : c ≠ .nan) :
    dispatchLine c .zero = if c = .zero then .bothZero else .zeroB := by
  by_cases hz : c = .zero <;> simp [dispatchLine, hi, hn, hz]

end

/-- Line 9 is left for two operands that are neither NaN nor Infinity nor Zero (R77, R78). -/
theorem dispatchLine_eq_generalPath_iff (a b : Word) :
    dispatchLine (classify a) (classify b) = .generalPath ↔ isFiniteNonzero a = true ∧ isFiniteNonzero b = true := by
  constructor
  · intro h
    unfold dispatchLine at h
    split_ifs at h with hna hnb _ hia hib _ hza hzb
    exact ⟨isFiniteNonzero_of_ne_zero ((isFinite_iff_class a).mpr ⟨hia, hna⟩) hza,
      isFiniteNonzero_of_ne_zero ((isFinite_iff_class b).mpr ⟨hib, hnb⟩) hzb⟩
  · rintro ⟨ha, hb⟩
    rcases (isFiniteNonzero_iff a).mp ha with ha | ha <;> rcases (isFiniteNonzero_iff b).mp hb with hb | hb <;>
      rw [ha, hb] <;> rfl

/-! ### What the general path is given (R78) -/

/-- The hidden bit is set where the biased exponent is not 0 (R42). -/
theorem workingSignificand_hiddenBit (x : Word) :
    (workingSignificand (decodeFields x)).getLsbD 23 = true ↔ exponentField x ≠ 0 := by
  have hf := (fractionField x).isLt
  rw [BitVec.getLsbD, Nat.testBit_eq_decide_div_mod_eq, decide_eq_true_iff, workingSignificand_toNat]
  split_ifs with h
  · exact iff_of_false (by omega) (not_not.mpr h)
  · exact iff_of_true (by omega) h

theorem hiddenBit_iff_normal {x : Word} (hx : isFinite x = true) :
    (workingSignificand (decodeFields x)).getLsbD 23 = true ↔ classify x = .normal := by
  rw [workingSignificand_hiddenBit, classify_eq_normal]
  exact (and_iff_left ((isFinite_iff x).mp hx)).symm

/-- Settles O39: line 9 is left for finite nonzero operands only, and the ranges are those of their fields. -/
theorem alignerInputsAreFiniteNonzero : Obligations.AlignerInputsAreFiniteNonzero := by
  unfold Obligations.AlignerInputsAreFiniteNonzero
  intro a b hline x hx
  obtain ⟨ha, hb⟩ := (dispatchLine_eq_generalPath_iff a b).mp hline
  have hnonzero : isFiniteNonzero x = true := by
    rcases hx with rfl | rfl
    · exact ha
    · exact hb
  have hfinite := isFinite_of_isFiniteNonzero hnonzero
  exact ⟨(isFiniteNonzero_iff x).mp hnonzero, effectiveExponent_pos x, effectiveExponent_le x hfinite,
    workingSignificand_pos x hnonzero, Nat.le_of_lt_succ (workingSignificand (decodeFields x)).isLt,
    hiddenBit_iff_normal hfinite⟩

/-! ### The result of each line -/

/-- `{s, 31'b0}` is the zero of sign `s` (R44, R75). -/
theorem zeroOf_eq_append (s : BitVec 1) : zeroOf s = s ++ (0 : BitVec 31) := by
  rcases sign_cases s with rfl | rfl <;> decide

/-- Settles O37: on each branch of the chain the classes are those of one line, and an operand that is neither NaN nor
Infinity is finite. -/
theorem dispatchInOrder : Obligations.DispatchInOrder := by
  unfold Obligations.DispatchInOrder
  intro a b
  split_ifs with hna hnb hinf hsign hia hib hzeros hza hzb
  · exact addFloat32_of_nan_left hna
  · exact addFloat32_of_nan_right hna hnb
  · rw [addFloat32_of_infinities hinf.1 hinf.2, if_pos hsign]
  · rw [addFloat32_of_infinities hinf.1 hinf.2, if_neg hsign]
  · exact addFloat32_of_infinity_left hia ((isFinite_iff_class b).mpr ⟨fun hib => hinf ⟨hia, hib⟩, hnb⟩)
  · exact addFloat32_of_infinity_right ((isFinite_iff_class a).mpr ⟨hia, hna⟩) hib
  · rw [addFloat32_of_zeros hzeros.1 hzeros.2, zeroOf_eq_append]
  all_goals
    have hfa := (isFinite_iff_class a).mpr ⟨hia, hna⟩
    have hfb := (isFinite_iff_class b).mpr ⟨hib, hnb⟩
  · exact addFloat32_of_zero_left hza (isFiniteNonzero_of_ne_zero hfb fun hzb => hzeros ⟨hza, hzb⟩)
  · exact addFloat32_of_zero_right (isFiniteNonzero_of_ne_zero hfa hza) hzb
  · exact addFloat32_of_finite_nonzero (isFiniteNonzero_of_ne_zero hfa hza) (isFiniteNonzero_of_ne_zero hfb hzb)

/-! ### The rows of the opcode table -/

/-- An operand decodes to the row of its class (R41). -/
theorem rowClass_decode_operand (x : Word) : rowClass (decode (.operand x)) = some (classify x) := by
  rw [decode, decodeOperand]
  cases classify x <;> rfl

/-- Settles O59: the row gives the class of `x`, and with it the two lines that the class of `z` chooses between. -/
theorem operandRowsDecideDispatchLines : Obligations.OperandRowsDecideDispatchLines := by
  unfold Obligations.OperandRowsDecideDispatchLines
  intro x z
  simp only [rowClass_decode_operand, Option.some.injEq]
  refine ⟨fun hx hz => ?zero, fun hx hz => ?general, fun hx hz => ?infinity, fun hx => ?nan⟩
  case zero =>
    obtain ⟨hinf, hnan⟩ := (isFinite_iff_class z).mp hz
    rw [hx, dispatchLine_zero_left hinf hnan, dispatchLine_zero_right hinf hnan]
    exact ⟨ite_eq_or_eq .., ite_eq_or_eq ..⟩
  case general =>
    have hx : isFiniteNonzero x = true := (isFiniteNonzero_iff x).mpr hx.symm
    exact ⟨(dispatchLine_eq_generalPath_iff x z).mpr ⟨hx, hz⟩, (dispatchLine_eq_generalPath_iff z x).mpr ⟨hz, hx⟩⟩
  case infinity =>
    rw [hx, dispatchLine_infinity_left hz, dispatchLine_infinity_right hz]
    exact ⟨ite_eq_or_eq .., ite_eq_or_eq ..⟩
  case nan =>
    rw [hx, dispatchLine_nan_left, dispatchLine_nan_right]
    exact ⟨rfl, ite_eq_or_eq ..⟩

end Sys2Proof.Machine
end

section
/-! SUPPORT. 42_align_combine.md R86 to R88: the jamming shift and its sticky bit, bit by bit. -/

namespace Sys2Proof.Machine

/-! ### Bits of the parts -/

theorem eq_one_iff_getLsbD (b : BitVec 1) : b = 1 ↔ b.getLsbD 0 = true := by
  rcases sign_cases b with rfl | rfl <;> decide

theorem extractBit_eq_one_iff_getLsbD {w : Nat} (v : BitVec w) (i : Nat) :
    v.extractLsb' i 1 = 1 ↔ v.getLsbD i = true := by
  rw [eq_one_iff_getLsbD, BitVec.getLsbD_extractLsb']
  simp

/-- The three positions below an extended significand are 0 (R81). -/
theorem extendSignificand_getLsbD (m : BitVec 24) (i : Nat) :
    (extendSignificand m).getLsbD i = if i < 3 then false else m.getLsbD (i - 3) := by
  unfold extendSignificand
  rw [BitVec.getLsbD_append, BitVec.getLsbD_zero]

/-- A value is not 0 where one of its bits is set. -/
theorem ne_zero_iff_getLsbD {w : Nat} (v : BitVec w) : v ≠ 0 ↔ ∃ j, v.getLsbD j = true := by
  refine ⟨fun h => ?_, ?_⟩
  · by_contra hbits
    exact h (BitVec.eq_of_getLsbD_eq fun j _ => by simpa using (not_exists.mp hbits) j)
  · rintro ⟨j, hj⟩ rfl
    simp at hj

theorem orLowBits_eq_one_iff (v : BitVec 27) (n : Nat) : orLowBits v n = 1 ↔ ∃ j < n, v.getLsbD j = true := by
  have hbit (j : Nat) : (v.toNat % 2 ^ n).testBit j = true ↔ j < n ∧ v.getLsbD j = true := by
    rw [Nat.testBit_mod_two_pow, Bool.and_eq_true, decide_eq_true_iff, BitVec.getLsbD]
  unfold orLowBits
  split_ifs with h
  · refine iff_of_false (by decide) ?_
    rintro ⟨j, hj⟩
    simpa [h] using (hbit j).mpr hj
  · obtain ⟨j, hj⟩ := Nat.exists_testBit_of_ne_zero h
    exact iff_of_true rfl ⟨j, (hbit j).mp hj⟩

/-! ### The jamming shift -/

section
variable (v : BitVec 27) {d : Nat}

@[simp] theorem jamShiftRight_zero : jamShiftRight v 0 = v := if_pos rfl

theorem jamShiftRight_of_lt (h1 : 1 ≤ d) (h27 : d < 27) :
    jamShiftRight v d = (v >>> d) ||| (orLowBits v d).setWidth 27 := by
  rw [jamShiftRight, if_neg (by omega), if_pos h27]

theorem jamShiftRight_of_ge (h27 : 27 ≤ d) : jamShiftRight v d = if v = 0 then 0 else 1 := by
  rw [jamShiftRight, if_neg (by omega), if_neg (by omega), orReduce]
  split_ifs <;> rfl

/-- Above bit 0 the jamming shift is a plain shift. -/
theorem jamShiftRight_getLsbD_pos (h1 : 1 ≤ d) (h27 : d < 27) {i : Nat} (hi : 1 ≤ i) :
    (jamShiftRight v d).getLsbD i = v.getLsbD (i + d) := by
  have hlost : ((orLowBits v d).setWidth 27).getLsbD i = false := by
    rw [BitVec.getLsbD_setWidth, BitVec.getLsbD_of_ge _ _ hi, Bool.and_false]
  rw [jamShiftRight_of_lt v h1 h27, BitVec.getLsbD_or, hlost, Bool.or_false, BitVec.getLsbD_ushiftRight, Nat.add_comm]

/-- Bit 0 of the jamming shift is the OR of the bit that lands there and of those shifted out. -/
theorem jamShiftRight_getLsbD_zero (h1 : 1 ≤ d) (h27 : d < 27) :
    (jamShiftRight v d).getLsbD 0 = true ↔ ∃ j ≤ d, v.getLsbD j = true := by
  have hlost : ((orLowBits v d).setWidth 27).getLsbD 0 = true ↔ ∃ j < d, v.getLsbD j = true := by
    rw [← orLowBits_eq_one_iff, eq_one_iff_getLsbD]
    simp
  rw [jamShiftRight_of_lt v h1 h27, BitVec.getLsbD_or, Bool.or_eq_true, hlost, BitVec.getLsbD_ushiftRight]
  simp only [Nat.add_zero, Nat.le_iff_lt_or_eq, or_and_right, exists_or, exists_eq_left, or_comm]

end

/-- Settles O40: each range of distances is one branch of the definition. -/
theorem jammingShiftBits : Obligations.JammingShiftBits := by
  unfold Obligations.JammingShiftBits
  intro v d
  refine ⟨?_, fun h1 h27 => ⟨fun _ => jamShiftRight_getLsbD_pos v h1 h27, jamShiftRight_getLsbD_zero v h1 h27⟩,
    jamShiftRight_of_ge v⟩
  rintro rfl
  exact jamShiftRight_zero v

/-! ### The sticky bit -/

section
variable (v : BitVec 27) {d : Nat}

@[simp] theorem lostBits_zero : lostBits v 0 = 0 := if_pos rfl

/-- The sticky bit is the OR of the bits below the distance; no bit is above bit 26 (R87). -/
theorem lostBits_eq_one_iff : lostBits v d = 1 ↔ ∃ j < d, v.getLsbD j = true := by
  unfold lostBits
  split_ifs with h0
  · simp [h0]
  · rw [orLowBits_eq_one_iff]
    refine exists_congr fun j => and_congr_left fun hj => ?_
    have := BitVec.lt_of_getLsbD hj
    omega

/-- The sticky bit is in bit 0 of the shifted value already (R87). -/
theorem jamShiftRight_getLsbD_zero_of_lostBits (h : lostBits v d = 1) : (jamShiftRight v d).getLsbD 0 = true := by
  obtain ⟨j, hjd, hj⟩ := (lostBits_eq_one_iff v).mp h
  by_cases h27 : d < 27
  · exact (jamShiftRight_getLsbD_zero v (by omega) h27).mpr ⟨j, hjd.le, hj⟩
  · rw [jamShiftRight_of_ge v (Nat.le_of_not_lt h27), if_neg ((ne_zero_iff_getLsbD v).mpr ⟨j, hj⟩)]
    rfl

end

/-- A shift by at most 3 drops only the three positions below the significand (R87). -/
theorem lostBits_extendSignificand (m : BitVec 24) {d : Nat} (hd : d ≤ 3) : lostBits (extendSignificand m) d = 0 := by
  refine (sign_cases _).resolve_right fun h => ?_
  obtain ⟨j, hjd, hj⟩ := (lostBits_eq_one_iff _).mp h
  rw [extendSignificand_getLsbD, if_pos (by omega)] at hj
  exact Bool.false_ne_true hj

/-- Settles O41: the sticky bit by bits, in the shifted value, and for short distances. -/
theorem stickyBitIsTheLostBits : Obligations.StickyBitIsTheLostBits :=
  ⟨fun v _ => ⟨lostBits_eq_one_iff v, jamShiftRight_getLsbD_zero_of_lostBits v⟩,
    fun m _ => lostBits_extendSignificand m⟩

/-! ### Long distances -/

/-- Rounded to odd, a number that is not 0 and below twice the divisor is 1. -/
theorem oddQuotient_eq_one {n d : Nat} (h0 : n ≠ 0) (hlt : n < 2 * 2 ^ d) : oddQuotient n d = 1 := by
  have hq : n / 2 ^ d < 2 := Nat.div_lt_of_lt_mul (by omega)
  by_cases hr : n % 2 ^ d = 0
  · have hn := Nat.div_add_mod n (2 ^ d)
    have hpos : n / 2 ^ d ≠ 0 := fun hz => h0 (by rw [← hn, hz, hr, Nat.mul_zero])
    rw [oddQuotient_of_dvd hr]
    exact le_antisymm (Nat.le_of_lt_succ hq) (Nat.pos_of_ne_zero hpos)
  · rw [oddQuotient_of_not_dvd hr, Nat.div_eq_of_lt hq]

theorem jamShiftRight_eq_one {v : BitVec 27} {d : Nat} (hv : v ≠ 0) (hd : 26 ≤ d) : jamShiftRight v d = 1 := by
  have hlt := v.isLt
  have hpow : 2 ^ 26 ≤ 2 ^ d := Nat.pow_le_pow_right (by norm_num) hd
  apply BitVec.eq_of_toNat_eq
  rw [jamShiftRight_toNat]
  exact oddQuotient_eq_one (fun h => hv (BitVec.eq_of_toNat_eq h)) (by omega)

/-- The leading bit of a Normal's extended significand, bit 26, lands in bit `26 - d`. -/
theorem leadingBit_of_jamShiftRight {m : BitVec 24} (hm : m.getLsbD 23 = true) {d : Nat} (h1 : 1 ≤ d) (h26 : d < 26) :
    (jamShiftRight (extendSignificand m) d).getLsbD (26 - d) = true := by
  rw [jamShiftRight_getLsbD_pos _ h1 (by omega) (by omega), Nat.sub_add_cancel (by omega), extendSignificand_getLsbD]
  exact hm

/-- Settles O42: the sticky bit alone from 26 on, the leading bit at 24 and 25, and the sum that R88 names, evaluated. -/
theorem largeShiftsLeaveTheStickyBit : Obligations.LargeShiftsLeaveTheStickyBit := by
  unfold Obligations.LargeShiftsLeaveTheStickyBit
  refine ⟨fun v d => jamShiftRight_eq_one, fun m hm => ⟨?guard, ?round⟩, by decide⟩
  case guard =>
    exact (extractBit_eq_one_iff_getLsbD _ 2).mpr (leadingBit_of_jamShiftRight hm (d := 24) (by decide) (by decide))
  case round =>
    exact (extractBit_eq_one_iff_getLsbD _ 1).mpr (leadingBit_of_jamShiftRight hm (d := 25) (by decide) (by decide))

end Sys2Proof.Machine
end

section
/-! SUPPORT. 42_align_combine.md R82 to R85 and R90 to R93: the aligner for finite operands, and the magnitude engine on
every pair of aligned significands. -/

namespace Sys2Proof.Machine

/-! ### Aligner -/

/-- Both outputs of the aligner as jamming shifts, of which the one by 0 shifts nothing (R84, R85). -/
theorem alignOperands_sig (da db : Decoded) :
    (alignOperands da db).sigA = jamShiftRight (extendSignificand (workingSignificand da))
      ((effectiveExponent db).toNat - (effectiveExponent da).toNat) ∧
    (alignOperands da db).sigB = jamShiftRight (extendSignificand (workingSignificand db))
      ((effectiveExponent da).toNat - (effectiveExponent db).toNat) := by
  by_cases h : (effectiveExponent db).toNat ≤ (effectiveExponent da).toNat
  · simp [alignOperands, h]
  · simp [alignOperands, h, Nat.sub_eq_zero_of_le (Nat.le_of_not_le h)]

theorem alignOperands_commonExponent_toNat (da db : Decoded) :
    (alignOperands da db).commonExponent.toNat = max (effectiveExponent da).toNat (effectiveExponent db).toNat := by
  by_cases h : (effectiveExponent db).toNat ≤ (effectiveExponent da).toNat
  · simp [alignOperands, h]
  · simp [alignOperands, h, Nat.le_of_not_le h]

/-- The sticky bit is that of the shifted operand (R84, R87). -/
theorem alignOperands_stickyBit (da db : Decoded) :
    (alignOperands da db).stickyBit =
      if (effectiveExponent db).toNat ≤ (effectiveExponent da).toNat
      then lostBits (extendSignificand (workingSignificand db)) ((effectiveExponent da).toNat - (effectiveExponent db).toNat)
      else lostBits (extendSignificand (workingSignificand da))
        ((effectiveExponent db).toNat - (effectiveExponent da).toNat) := by
  by_cases h : (effectiveExponent db).toNat ≤ (effectiveExponent da).toNat <;> simp [alignOperands, h]

/-- Settles O43: the outputs of the aligner, with effective exponents of 1 to 254 for finite operands. -/
theorem alignerShiftsTheSmallerExponent : Obligations.AlignerShiftsTheSmallerExponent := by
  unfold Obligations.AlignerShiftsTheSmallerExponent
  intro a b ha hb al xa xb a0 b0
  have ha1 : 1 ≤ xa := effectiveExponent_pos a
  have hb1 : 1 ≤ xb := effectiveExponent_pos b
  have ha2 : xa ≤ 254 := effectiveExponent_le a ha
  have hb2 : xb ≤ 254 := effectiveExponent_le b hb
  have hmax : al.commonExponent.toNat = max xa xb := alignOperands_commonExponent_toNat _ _
  have hsticky : al.stickyBit = if xb ≤ xa then lostBits b0 (xa - xb) else lostBits a0 (xb - xa) :=
    alignOperands_stickyBit _ _
  obtain ⟨hA, hB⟩ : al.sigA = jamShiftRight a0 (xb - xa) ∧ al.sigB = jamShiftRight b0 (xa - xb) :=
    alignOperands_sig _ _
  refine ⟨hmax, by omega, by omega, by omega, hA, hB, hsticky, fun heq => ?_⟩
  rw [hA, hB, hsticky, heq, Nat.sub_self, if_pos le_rfl]
  exact ⟨jamShiftRight_zero a0, jamShiftRight_zero b0, lostBits_zero b0⟩

/-! ### Magnitude engine -/

section
variable {al : AlignedOperands} {sa sb : BitVec 1}

/-- Equal signs: an exact sum of that sign (R89). -/
theorem combineMagnitudes_of_same_sign (hs : sa = sb) :
    ∃ c, combineMagnitudes al sa sb = some c ∧ c.sign = sa ∧ c.op = .sameSign ∧
      c.sum.toNat = al.sigA.toNat + al.sigB.toNat := by
  rcases combineMagnitudes_cases al sa sb with
    ⟨c, hc, -, -, ⟨-, hop, hsign, hsum⟩ | ⟨hne, -⟩ | ⟨hne, -⟩⟩ | ⟨-, hne, -⟩
  · exact ⟨c, hc, hsign, hop, hsum⟩
  all_goals exact absurd hs hne

/-- A difference of two 27-bit significands carries nothing into bit 27. -/
theorem carry_eq_zero_of_sum_lt {c : Combined} (hcarry : c.carry = 1 ↔ 2 ^ 27 ≤ c.sum.toNat)
    (hlt : c.sum.toNat < 2 ^ 27) : c.carry = 0 :=
  (sign_cases c.carry).resolve_right fun h => absurd (hcarry.mp h) (Nat.not_le.mpr hlt)

/-- Different signs, `A` larger: the exact difference with the sign of `a` (R90). -/
theorem combineMagnitudes_of_gt (hs : sa ≠ sb) (hgt : al.sigB.toNat < al.sigA.toNat) :
    ∃ c, combineMagnitudes al sa sb = some c ∧ c.sign = sa ∧ c.op = .diffSign ∧ c.carry = 0 ∧
      c.sum.toNat = al.sigA.toNat - al.sigB.toNat := by
  have hA := al.sigA.isLt
  rcases combineMagnitudes_cases al sa sb with
    ⟨c, hc, -, hcarry, ⟨heq, -⟩ | ⟨-, hop, -, hsign, hsum⟩ | ⟨-, -, hlt, -⟩⟩ | ⟨-, -, hAB⟩
  · exact absurd heq hs
  · exact ⟨c, hc, hsign, hop, carry_eq_zero_of_sum_lt hcarry (by omega), hsum⟩
  · exact absurd hgt hlt.asymm
  · exact absurd hgt (hAB ▸ lt_irrefl _)

/-- Different signs, `B` larger: the exact difference with the sign of `b` (R90). -/
theorem combineMagnitudes_of_lt (hs : sa ≠ sb) (hlt : al.sigA.toNat < al.sigB.toNat) :
    ∃ c, combineMagnitudes al sa sb = some c ∧ c.sign = sb ∧ c.op = .diffSign ∧ c.carry = 0 ∧
      c.sum.toNat = al.sigB.toNat - al.sigA.toNat := by
  have hB := al.sigB.isLt
  rcases combineMagnitudes_cases al sa sb with
    ⟨c, hc, -, hcarry, ⟨heq, -⟩ | ⟨-, -, hgt, -⟩ | ⟨-, hop, -, hsign, hsum⟩⟩ | ⟨-, -, hAB⟩
  · exact absurd heq hs
  · exact absurd hlt hgt.asymm
  · exact ⟨c, hc, hsign, hop, carry_eq_zero_of_sum_lt hcarry (by omega), hsum⟩
  · exact absurd hlt (hAB ▸ lt_irrefl _)

/-- The exponent is passed on, and the carry is bit 27 of the sum (R93). -/
theorem combineMagnitudes_passes {c : Combined} (h : combineMagnitudes al sa sb = some c) :
    c.exponent = al.commonExponent ∧ (c.carry = 1 ↔ c.sum.getLsbD 27 = true) := by
  unfold combineMagnitudes at h
  split_ifs at h <;> cases h <;> exact ⟨rfl, extractBit_eq_one_iff_getLsbD _ 27⟩

/-- The engine hands on nothing exactly where the signs differ and the significands are equal (R91). -/
theorem combineMagnitudes_eq_none_iff : combineMagnitudes al sa sb = none ↔ sa ≠ sb ∧ al.sigA = al.sigB := by
  constructor
  · intro h
    rcases combineMagnitudes_cases al sa sb with ⟨c, hc, -⟩ | ⟨-, hcancel⟩
    · rw [h] at hc; cases hc
    · exact hcancel
  · rintro ⟨hs, hAB⟩
    rw [combineMagnitudes, if_neg hs, hAB, if_neg (lt_irrefl _), if_neg (lt_irrefl _)]

end

/-- Settles O44: each clause is one case of the engine. -/
theorem magnitudeEngineIsExact : Obligations.MagnitudeEngineIsExact :=
  fun _ _ _ => ⟨combineMagnitudes_of_same_sign, combineMagnitudes_of_gt, combineMagnitudes_of_lt,
    fun _ => combineMagnitudes_passes⟩

end Sys2Proof.Machine
end

section
/-! SUPPORT. 42_align_combine.md R91 and R92: the aligned significands compare as the magnitudes of the operands do, and
are equal only where the magnitudes are. -/

namespace Sys2Proof.Machine

/-! ### Comparison of the aligned significands -/

/-- Where `a` has the larger effective exponent or the same, the aligned significands compare as the magnitudes in units
of `2^-149`: a shifted significand stays below that of a Normal. -/
theorem aligned_compare_of_le {a b : Word}
    (hle : (effectiveExponent (decodeFields b)).toNat ≤ (effectiveExponent (decodeFields a)).toNat) :
    let al := alignOperands (decodeFields a) (decodeFields b)
    (al.sigB.toNat < al.sigA.toNat ↔ scaledMagnitude b < scaledMagnitude a) ∧
    (al.sigA.toNat < al.sigB.toNat ↔ scaledMagnitude a < scaledMagnitude b) := by
  intro al
  have hb1 := effectiveExponent_pos b
  obtain ⟨-, hA, hB⟩ := alignOperands_of_le hle
  obtain ⟨d, hd⟩ : ∃ d, (effectiveExponent (decodeFields a)).toNat = (effectiveExponent (decodeFields b)).toNat + d :=
    Nat.exists_eq_add_of_le hle
  obtain ⟨-, hgt, hlt, -⟩ := engine_arith (d := d) (workingSignificand_lt b)
    fun h => workingSignificand_ge_of_exponent a (by omega)
  have hunit : 0 < 2 ^ ((effectiveExponent (decodeFields b)).toNat - 1) := Nat.two_pow_pos _
  have hmagA : scaledMagnitude a = (workingSignificand (decodeFields a)).toNat * 2 ^ d *
      2 ^ ((effectiveExponent (decodeFields b)).toNat - 1) := by
    rw [scaledMagnitude, hd, Nat.add_comm, Nat.add_sub_assoc hb1, pow_add, Nat.mul_assoc]
  rw [hd, Nat.add_sub_cancel_left] at hB
  rw [hA, hB, hmagA, scaledMagnitude, Nat.mul_lt_mul_right hunit, Nat.mul_lt_mul_right hunit]
  exact ⟨hgt, hlt⟩

section
variable (a b : Word)

/-- Alignment keeps the order of the magnitudes (R92). -/
theorem aligned_compare :
    let al := alignOperands (decodeFields a) (decodeFields b)
    (al.sigB.toNat < al.sigA.toNat ↔ scaledMagnitude b < scaledMagnitude a) ∧
    (al.sigA.toNat < al.sigB.toNat ↔ scaledMagnitude a < scaledMagnitude b) := by
  rcases Nat.le_total (effectiveExponent (decodeFields b)).toNat (effectiveExponent (decodeFields a)).toNat with h | h
  · exact aligned_compare_of_le h
  · obtain ⟨-, hA, hB⟩ := alignOperands_swap a b
    obtain ⟨hgt, hlt⟩ := aligned_compare_of_le h
    rw [hA, hB] at hgt hlt
    exact ⟨hlt, hgt⟩

theorem aligned_eq_iff :
    (alignOperands (decodeFields a) (decodeFields b)).sigA = (alignOperands (decodeFields a) (decodeFields b)).sigB ↔
      scaledMagnitude a = scaledMagnitude b := by
  obtain ⟨hgt, hlt⟩ := aligned_compare a b
  rw [← BitVec.toNat_inj]
  omega

theorem abs_value_lt_iff : |value a| < |value b| ↔ scaledMagnitude a < scaledMagnitude b := by
  rw [abs_value_eq, abs_value_eq, div_lt_div_iff_of_pos_right (by positivity), Nat.cast_lt]

theorem abs_value_eq_iff : |value a| = |value b| ↔ scaledMagnitude a = scaledMagnitude b := by
  rw [abs_value_eq, abs_value_eq, div_left_inj' (by positivity), Nat.cast_inj]

end

/-- Settles O46: both comparisons are that of the magnitudes in units of `2^-149`. -/
theorem alignedSignificandsCompareAsMagnitudes : Obligations.AlignedSignificandsCompareAsMagnitudes := by
  unfold Obligations.AlignedSignificandsCompareAsMagnitudes
  intro a b _ _
  obtain ⟨hgt, hlt⟩ := aligned_compare a b
  exact ⟨hgt.trans (abs_value_lt_iff b a).symm, hlt.trans (abs_value_lt_iff a b).symm,
    (aligned_eq_iff a b).trans (abs_value_eq_iff a b).symm⟩

/-! ### Exact cancellation -/

/-- Patterns of the same magnitude agree in their 31 magnitude bits (R52). -/
theorem scaledMagnitude_eq_iff (x z : Word) :
    scaledMagnitude x = scaledMagnitude z ↔ x.toNat % 2 ^ 31 = z.toNat % 2 ^ 31 := by
  rw [scaledMagnitude_eq, scaledMagnitude_eq, magnitudeOfPattern_strictMono.injective.eq_iff]

/-- `b` is `a` with its sign bit flipped exactly where the signs differ and the magnitudes do not. -/
theorem eq_hostNegate_iff (a b : Word) :
    b = hostNegate a ↔ signField a ≠ signField b ∧ scaledMagnitude a = scaledMagnitude b := by
  have ha := a.isLt
  have hb := b.isLt
  rw [scaledMagnitude_eq_iff, Ne, ← BitVec.toNat_inj, ← BitVec.toNat_inj, signField_toNat, signField_toNat,
    hostNegate_toNat]
  split_ifs <;> omega

/-- Settles O45: the significands are equal exactly where the magnitudes are, and then the general path gives +0. -/
theorem cancellationGivesPositiveZero : Obligations.CancellationGivesPositiveZero := by
  unfold Obligations.CancellationGivesPositiveZero
  intro a b ha hb
  simp only [aligned_eq_iff a b, combineMagnitudes_eq_none_iff, true_and]
  refine ⟨fun hs hmag => ⟨(eq_hostNegate_iff a b).mpr ⟨hs, hmag⟩, ?zero⟩, (eq_hostNegate_iff a b).mp⟩
  case zero =>
    have hnone := combineMagnitudes_eq_none_iff.mpr ⟨hs, (aligned_eq_iff a b).mpr hmag⟩
    rw [addFloat32_of_finite_nonzero ha hb, generalResult_eq_finishCombined, hnone]
    rfl

end Sys2Proof.Machine
end

section
/-! SUPPORT. 43_normalize_round_encode.md R94, R95 and R97: the normalizer on what the magnitude engine hands on, and the
limits of its left shift. -/

namespace Sys2Proof.Machine

/-! ### The top bit of a value -/

section
variable {w : Nat} (v : BitVec (w + 1))

theorem topBit_set_iff : v.getLsbD w = true ↔ 2 ^ w ≤ v.toNat := by
  have htop : v.getLsbD w = decide (2 ^ w ≤ v.toNat) := (BitVec.msb_eq_getLsbD_last v).symm.trans (BitVec.msb_eq_decide v)
  rw [htop, decide_eq_true_iff]

theorem topBit_clear_iff : v.getLsbD w = false ↔ v.toNat < 2 ^ w := by
  rw [← Bool.not_eq_true, topBit_set_iff, Nat.not_le]

end

/-! ### What reaches the normalizer -/

/-- The difference `d` of the effective exponents (R80). -/
def exponentDistance (a b : Word) : Nat :=
  ((effectiveExponent (decodeFields a)).toNat - (effectiveExponent (decodeFields b)).toNat : ℤ).natAbs

section
variable {a b : Word} {c : Combined} (h : ReachesNormalizer a b c)
include h

theorem ReachesNormalizer.addFloat32_eq : addFloat32 a b = finishSum c := by
  obtain ⟨ha, hb, hc⟩ := h
  rw [addFloat32_of_finite_nonzero ha hb, generalResult_eq_finishCombined, hc]
  rfl

/-- The exact sum is not 0, and the engine's output is that sum, rounded to odd. -/
theorem ReachesNormalizer.engineOutput :
    scaledValue a + scaledValue b ≠ 0 ∧
      ∃ w k, IsEngineOutput (scaledValue a + scaledValue b) c w (exponentDistance a b) k := by
  obtain ⟨ha, hb, hc⟩ := h
  rcases engine_cases ha hb with ⟨hnone, -⟩ | ⟨c', w, k, hsome, hv, hout⟩
  · rw [hnone] at hc; cases hc
  · obtain rfl : c' = c := Option.some.inj (hsome.symm.trans hc)
    exact ⟨hv, w, k, hout⟩

theorem ReachesNormalizer.carry_iff : c.carry = 1 ↔ c.sum.getLsbD 27 = true := by
  obtain ⟨-, -, hc⟩ := h
  exact (combineMagnitudes_passes hc).2

theorem ReachesNormalizer.exponent_bounds : 1 ≤ c.exponent.toNat ∧ c.exponent.toNat ≤ 254 := by
  obtain ⟨-, w, k, hout⟩ := h.engineOutput
  have hexp := hout.exponent
  exact ⟨by omega, hout.exponent_le⟩

/-- Only a sum of operands of the same sign carries into bit 27: a difference of 27-bit significands does not (R94). -/
theorem ReachesNormalizer.sameSign_of_carry (h27 : c.sum.getLsbD 27 = true) : c.op = .sameSign := by
  obtain ⟨-, w, k, hout⟩ := h.engineOutput
  cases hop : c.op with
  | sameSign => rfl
  | diffSign => exact absurd (hout.diff hop) (Nat.not_lt.mpr ((topBit_set_iff c.sum).mp h27))

end

/-! ### The right shift on a carry (R94) -/

/-- Rounding to odd by one bit is a right shift that ORs the dropped bit into bit 0. -/
theorem oddQuotient_one_testBit (n : Nat) :
    (∀ i, 1 ≤ i → (oddQuotient n 1).testBit i = n.testBit (i + 1)) ∧
    (oddQuotient n 1).testBit 0 = (n.testBit 1 || n.testBit 0) := by
  constructor
  · intro i hi
    have hhalf : oddQuotient n 1 / 2 = n / 2 / 2 := by
      unfold oddQuotient
      split_ifs <;> omega
    obtain ⟨j, rfl⟩ := Nat.exists_eq_add_of_le' hi
    rw [Nat.testBit_add_one, hhalf, Nat.testBit_div_two, Nat.testBit_div_two]
  · have hlow : oddQuotient n 1 % 2 = 1 ↔ n / 2 % 2 = 1 ∨ n % 2 = 1 := by
      unfold oddQuotient
      split_ifs <;> omega
    rw [Nat.testBit_add_one n 0, Nat.testBit_zero, Nat.testBit_zero, Nat.testBit_zero, ← Bool.decide_or]
    exact decide_eq_decide.mpr hlow

/-- Settles O47: bit 27 is the carry, and the sum is rounded to odd by one bit. -/
theorem carryShiftsRightAndJams : Obligations.CarryShiftsRightAndJams := by
  unfold Obligations.CarryShiftsRightAndJams
  intro a b c h h27
  obtain ⟨-, hle⟩ := h.exponent_bounds
  have hop := h.sameSign_of_carry h27
  rcases normalizeSum_of_carry (h.carry_iff.mpr h27) with ⟨he, hov⟩ | ⟨he, n, hn, hsign, hexp, hsum⟩
  · exact ⟨hop, fun _ => ⟨hov, h.addFloat32_eq.trans (finishSum_of_overflow hov)⟩, fun hne => absurd he hne⟩
  · obtain ⟨hhigh, hlow⟩ := oddQuotient_one_testBit c.sum.toNat
    refine ⟨hop, fun h255 => absurd h255 he, fun _ => ⟨n, hn, hsign, ?_, fun i hi => ?_, ?_⟩⟩
    · rw [hexp, BitVec.toNat_ofNat, Nat.mod_eq_of_lt (by omega)]
    · exact (congrArg (Nat.testBit · i) hsum).trans (hhigh i hi)
    · exact (congrArg (Nat.testBit · 0) hsum).trans hlow

/-! ### The left shift without a carry (R95, R97) -/

/-- A value from `2^(26 - j)` on has at most `j` leading zeros. -/
theorem lzc27_le_of_ge {v : BitVec 27} {j : Nat} (h : 2 ^ (26 - j) ≤ v.toNat) : lzc27 v ≤ j := by
  obtain ⟨-, hlt, hne⟩ := lzc27_spec v
  have hv : v ≠ 0 := by
    rintro rfl
    exact absurd h (Nat.not_le.mpr (Nat.two_pow_pos _))
  have := (Nat.pow_lt_pow_iff_right (a := 2) (by norm_num)).mp (h.trans_lt hlt)
  have := (hne hv).1
  omega

/-- The count of the left shift is bounded as the leading zeros of the sum are. -/
theorem leftShiftCount_le_of_sum_ge {c : Combined} (hlt : c.sum.toNat < 2 ^ 27) {j : Nat}
    (h : 2 ^ (26 - j) ≤ c.sum.toNat) : leftShiftCount c ≤ j := by
  refine (Nat.min_le_left _ _).trans (lzc27_le_of_ge ?_)
  rwa [BitVec.toNat_setWidth, Nat.mod_eq_of_lt hlt]

section
variable {v : Int} {c : Combined} {w d k : Nat} (h : IsEngineOutput v c w d k)
include h

/-- The engine's sum reaches every even number that the exact sum reaches. -/
theorem IsEngineOutput.sum_ge_iff (m : Nat) : 2 * m ≤ c.sum.toNat ↔ 2 * m * 2 ^ d ≤ 8 * w := by
  rw [h.sum]
  exact even_le_oddQuotient_iff

variable (hlt : c.sum.toNat < 2 ^ 27)
include hlt

/-- Operands of the same sign: either one of them is a Normal, whose leading bit is bit 26 of the sum or above, or the cap
is 0 (R97). -/
theorem IsEngineOutput.leftShiftCount_of_sameSign (hop : c.op = .sameSign) : leftShiftCount c = 0 := by
  by_cases hnormal : 1 ≤ d ∨ 1 ≤ k
  · have hwide := h.same hop hnormal
    have hsum := (h.sum_ge_iff (2 ^ 25)).mpr (by omega)
    exact Nat.le_zero.mp (leftShiftCount_le_of_sum_ge hlt (by omega))
  · have hexp := h.exponent
    exact Nat.le_zero.mp ((Nat.min_le_right _ _).trans (by omega))

/-- Exponents 2 or more apart cancel at most the leading bit (R97). -/
theorem IsEngineOutput.leftShiftCount_le_one (hd : 2 ≤ d) : leftShiftCount c ≤ 1 := by
  have hwide := h.wide hd
  have hsum := (h.sum_ge_iff (2 ^ 24)).mpr (by omega)
  exact leftShiftCount_le_of_sum_ge hlt (by omega)

/-- A sum of extended significands of which none moved by more than one position is 4 at least (R97). -/
theorem IsEngineOutput.leftShiftCount_le_of_near (hd : d ≤ 1) : leftShiftCount c ≤ 24 := by
  have hpos := h.positive
  have hpow : 2 ^ d ≤ 2 ^ 1 := Nat.pow_le_pow_right (by norm_num) hd
  have hsum := (h.sum_ge_iff 2).mpr (by omega)
  exact leftShiftCount_le_of_sum_ge hlt (by omega)

theorem IsEngineOutput.leftShiftCount_le : leftShiftCount c ≤ 24 := by
  rcases Nat.lt_or_ge d 2 with hd | hd
  · exact h.leftShiftCount_le_of_near hlt (by omega)
  · exact (h.leftShiftCount_le_one hlt hd).trans (by norm_num)

end

/-- The left-shift path for what reaches the normalizer: the shift is exact, and the cap keeps the exponent above 0 (R95). -/
theorem ReachesNormalizer.normalizeSum_of_bit27_clear {a b : Word} {c : Combined} (h : ReachesNormalizer a b c)
    (h27 : c.sum.getLsbD 27 = false) :
    ∃ n, normalizeSum c = .inRange n ∧ n.sign = c.sign ∧ n.sum.toNat = c.sum.toNat * 2 ^ leftShiftCount c ∧
      n.exponent.toNat = c.exponent.toNat - leftShiftCount c ∧ 1 ≤ n.exponent.toNat ∧ n.exponent.toNat ≤ 254 := by
  have hcarry : c.carry ≠ 1 := fun hc => by
    rw [h.carry_iff.mp hc] at h27; cases h27
  obtain ⟨n, hn, hsign, hexp, hsum, -⟩ :=
    normalizeSum_of_no_carry hcarry ((topBit_clear_iff c.sum).mp h27)
  have hcap : leftShiftCount c ≤ c.exponent.toNat - 1 := Nat.min_le_right _ _
  obtain ⟨hpos, hle⟩ := h.exponent_bounds
  exact ⟨n, hn, hsign, hsum, hexp, by omega, by omega⟩

/-- Settles O48: the count is that of `leftShiftCount`. -/
theorem leftShiftLosesNoBit : Obligations.LeftShiftLosesNoBit := by
  unfold Obligations.LeftShiftLosesNoBit
  intro a b c h h27 k
  obtain ⟨-, w, e, hout⟩ := h.engineOutput
  exact ⟨hout.leftShiftCount_le ((topBit_clear_iff c.sum).mp h27), h.normalizeSum_of_bit27_clear h27⟩

/-- Settles O51: the three limits, and the operands that reach 24, evaluated. -/
theorem leftShiftLimits : Obligations.LeftShiftLimits := by
  unfold Obligations.LeftShiftLimits
  refine ⟨fun a b c h h27 => ?limits, ⟨0, 128, 4, 0, .diffSign⟩, ?reached, rfl, by decide, by decide⟩
  case limits =>
    obtain ⟨-, w, k, hout⟩ := h.engineOutput
    have hlt := (topBit_clear_iff c.sum).mp h27
    exact ⟨hout.leftShiftCount_of_sameSign hlt, fun _ => hout.leftShiftCount_le_one hlt,
      fun _ => hout.leftShiftCount_le_of_near hlt⟩
  case reached =>
    unfold ReachesNormalizer
    decide

end Sys2Proof.Machine
end

section
/-! SUPPORT. 43_normalize_round_encode.md R100 to R102: the increment, and the rounding carry. -/

namespace Sys2Proof.Machine

/-! ### The increment (R100) -/

section
variable {n : BitVec 27}

theorem roundIncrement_of_guard_clear (hg : guardBit n = 0) : roundIncrement n = 0 := by
  rw [roundIncrement, hg]
  exact BitVec.zero_and

/-- Above a set guard bit, any of the round, the sticky and the last retained bit rounds up. -/
theorem roundIncrement_of_guard_set (hg : guardBit n = 1) :
    roundIncrement n = roundBit n ||| stickyBit n ||| lastRetainedBit n := by
  rw [roundIncrement, hg]
  exact BitVec.allOnes_and

end

theorem one_or_bit (b : BitVec 1) : 1 ||| b = 1 := BitVec.allOnes_or

/-- Settles O53: the guard bit decides whether there is anything to round, and with it set the increment is an OR. -/
theorem roundingIncrementCases : Obligations.RoundingIncrementCases := by
  unfold Obligations.RoundingIncrementCases
  intro n
  refine ⟨roundIncrement_of_guard_clear, fun hg hr => ?round, fun hg hr ht => ?sticky, fun hg hr ht => ?tie⟩ <;>
    rw [roundIncrement_of_guard_set hg, hr]
  case round => rw [one_or_bit, one_or_bit]
  case sticky => rw [ht, show (0 : BitVec 1) ||| 1 = 1 from rfl, one_or_bit]
  case tie => rw [ht]; exact BitVec.zero_or

/-! ### The incremented significand and the carry (R101, R102) -/

/-- The 25-bit sum does not wrap (R101). -/
theorem incrementedSignificand_toNat_eq_add (n : BitVec 27) :
    (incrementedSignificand n).toNat = n.toNat / 8 + (roundIncrement n).toNat := by
  have hn := n.isLt
  have hinc := (roundIncrement n).isLt
  rw [incrementedSignificand, BitVec.toNat_add, BitVec.toNat_setWidth, BitVec.toNat_setWidth, BitVec.extractLsb'_toNat,
    Nat.shiftRight_eq_div_pow]
  omega

/-- A carry into bit 24 needs every retained bit set and the increment, and leaves nothing below it (R102). -/
theorem eq_of_roundingCarry {n : BitVec 27} (h : (incrementedSignificand n).getLsbD 24 = true) :
    incrementedSignificand n = 0x1000000 ∧ n.toNat / 8 = 0xFFFFFF ∧ roundIncrement n = 1 := by
  have hn := n.isLt
  have hinc := (roundIncrement n).isLt
  have hm := incrementedSignificand_toNat_eq_add n
  have h24 := (topBit_set_iff (incrementedSignificand n)).mp h
  exact ⟨BitVec.eq_of_toNat_eq (show _ = 0x1000000 by omega), by omega,
    BitVec.eq_of_toNat_eq (show _ = 1 by omega)⟩

section
variable {n : Normalized}

/-- On a carry the significand is that of the next power of two, and only the exponent is left to check (R102). -/
theorem roundSum_of_carry (h : (incrementedSignificand n.sum).getLsbD 24 = true) :
    roundSum n = checkExponent n.sign (n.exponent.toNat + 1) fun e =>
      { sign := n.sign, exponent := e, significand := 0x800000 } := by
  obtain ⟨hm, -, -⟩ := eq_of_roundingCarry h
  rw [roundSum, hm]
  rfl

theorem roundSum_of_no_carry (h : (incrementedSignificand n.sum).getLsbD 24 = false) :
    ∃ r, roundSum n = .inRange r ∧ r.sign = n.sign ∧ r.significand.toNat = (incrementedSignificand n.sum).toNat ∧
      r.exponent = n.exponent := by
  have hcarry : ¬(incrementedSignificand n.sum).extractLsb' 24 1 = 1#1 := fun h1 => by
    rw [(extractBit_eq_one_iff_getLsbD _ 24).mp h1] at h; cases h
  refine ⟨_, if_neg hcarry, rfl, ?_, rfl⟩
  rw [BitVec.extractLsb'_toNat, Nat.shiftRight_zero, Nat.mod_eq_of_lt ((topBit_clear_iff _).mp h)]

end

/-- Settles O54: the carry fixes the significand, and the check of the exponent decides between it and the overflow. -/
theorem roundingCarry : Obligations.RoundingCarry := by
  unfold Obligations.RoundingCarry
  intro n m1
  refine ⟨incrementedSignificand_toNat_eq_add n.sum, fun hcarry => ?carry, roundSum_of_no_carry⟩
  case carry =>
    obtain ⟨hm, hall, hinc⟩ := eq_of_roundingCarry hcarry
    rw [roundSum_of_carry hcarry]
    refine ⟨hm, hall, hinc, fun h255 => if_pos h255, fun hlt => ⟨_, if_neg hlt.ne, rfl, rfl, ?_⟩⟩
    exact Nat.mod_eq_of_lt (by omega)

end Sys2Proof.Machine
end

section
/-! SUPPORT. 43_normalize_round_encode.md R96, R98 and R103 to R106: what the rounder and the encoder make of a normalized
sum, subnormal results, overflow, and the class and the sign of a result of the general path. -/

namespace Sys2Proof.Machine

/-! ### Small sums -/

section
variable {a b : Word} (ha : isFinite a = true) (hb : isFinite b = true)
include ha hb

/-- An exact sum below the smallest Normal is a Subnormal (R54, R63). -/
theorem classify_addFloat32_of_small (hv : scaledValue a + scaledValue b ≠ 0)
    (hlt : (scaledValue a + scaledValue b).natAbs < 2 ^ 23) : classify (addFloat32 a b) = .subnormal := by
  rw [addFloat32_eq_exactRne ha hb hv, classify_eq_subnormal_iff_magnitude, magnitudeField_exactRne,
    roundedPattern_of_small (by omega)]
  omega

theorem value_addFloat32_of_small (hlt : (scaledValue a + scaledValue b).natAbs < 2 ^ 24) :
    value (addFloat32 a b) = value a + value b := by
  obtain ⟨-, hexact⟩ := addFloat32_exact_of_small ha hb hlt
  rw [value_eq_scaledValue, hexact, value_add_value]

end

/-! ### What reaches the rounder -/

section
variable {a b : Word} {n : Normalized} (h : ReachesRounder a b n)
include h

theorem ReachesRounder.addFloat32_eq : addFloat32 a b = finishRounded n := by
  obtain ⟨c, hc, hn⟩ := h
  rw [hc.addFloat32_eq, finishSum_of_inRange hn]

/-- The exponent is that of a Normal, and with bit 26 clear the sum is the exact sum unrounded, at exponent 1 (R96, R98). -/
theorem ReachesRounder.normalized :
    1 ≤ n.exponent.toNat ∧ n.exponent.toNat ≤ 254 ∧ (n.sum.toNat < 2 ^ 26 →
      n.exponent.toNat = 1 ∧ n.sum.toNat = 8 * (scaledValue a + scaledValue b).natAbs) := by
  obtain ⟨c, hc, hn⟩ := h
  obtain ⟨-, w, k, hout⟩ := hc.engineOutput
  rcases normalize_exact hout with ⟨-, -, hov, -⟩ | ⟨n', hn', -, h1, h254, hsub, -⟩
  · rw [hn] at hov; cases hov
  · rw [hn] at hn'; cases hn'
    exact ⟨h1, h254, hsub⟩

variable (h26 : n.sum.getLsbD 26 = false)
include h26

/-- With bit 26 clear the normalized sum is the exact sum, three positions up, and not 0 (R98). -/
theorem ReachesRounder.sum_of_bit26_clear :
    n.sum.toNat = 8 * (scaledValue a + scaledValue b).natAbs ∧ scaledValue a + scaledValue b ≠ 0 ∧
      (scaledValue a + scaledValue b).natAbs < 2 ^ 23 := by
  obtain ⟨-, -, hsub⟩ := h.normalized
  have hlt := (topBit_clear_iff n.sum).mp h26
  obtain ⟨-, hsum⟩ := hsub hlt
  obtain ⟨c, hc, -⟩ := h
  obtain ⟨hv, -⟩ := hc.engineOutput
  exact ⟨hsum, hv, by omega⟩

/-- With bit 26 clear the result is a Subnormal and exact (R96, R98). -/
theorem ReachesRounder.subnormal_of_bit26_clear :
    classify (addFloat32 a b) = .subnormal ∧ value (addFloat32 a b) = value a + value b := by
  obtain ⟨-, hv, hlt⟩ := h.sum_of_bit26_clear h26
  obtain ⟨c, ⟨ha, hb, -⟩, -⟩ := h
  have hfa := isFinite_of_isFiniteNonzero ha
  have hfb := isFinite_of_isFiniteNonzero hb
  exact ⟨classify_addFloat32_of_small hfa hfb hv hlt, value_addFloat32_of_small hfa hfb (by omega)⟩

end

/-! ### Subnormal results (R96, R98) -/

/-- Where the cap stops the shift before the leading 1 reaches bit 26, bit 26 stays clear (R96). -/
theorem sum_shifted_lt_of_cap {v : BitVec 27} {k : Nat} (h : k < lzc27 v) : v.toNat * 2 ^ k < 2 ^ 26 := by
  obtain ⟨hle, hlt, -⟩ := lzc27_spec v
  calc v.toNat * 2 ^ k < 2 ^ (27 - lzc27 v) * 2 ^ k := Nat.mul_lt_mul_of_pos_right hlt (Nat.two_pow_pos k)
    _ = 2 ^ (27 - lzc27 v + k) := (pow_add 2 _ _).symm
    _ ≤ 2 ^ 26 := Nat.pow_le_pow_right (by norm_num) (by omega)

/-- Settles O50: the count is the cap, which leaves exponent 1 and bit 26 clear. -/
theorem subnormalClamp : Obligations.SubnormalClamp := by
  unfold Obligations.SubnormalClamp
  intro a b c h h27 hcap
  obtain ⟨n, hn, -, hsum, hexp, -⟩ := h.normalizeSum_of_bit27_clear h27
  obtain ⟨hpos, -⟩ := h.exponent_bounds
  have hcount : leftShiftCount c = c.exponent.toNat - 1 := Nat.min_eq_right hcap.le
  have hwidth : (c.sum.setWidth 27).toNat = c.sum.toNat := by
    rw [BitVec.toNat_setWidth, Nat.mod_eq_of_lt ((topBit_clear_iff c.sum).mp h27)]
  have h26 : n.sum.getLsbD 26 = false := by
    rw [topBit_clear_iff, hsum, hcount, ← hwidth]
    exact sum_shifted_lt_of_cap hcap
  have hone : n.exponent = 1 := BitVec.eq_of_toNat_eq (show _ = 1 by omega)
  have hreach : ReachesRounder a b n := ⟨c, h, hn⟩
  obtain ⟨hclass, -⟩ := hreach.subnormal_of_bit26_clear h26
  exact ⟨⟨n, hn, hone, h26⟩, hclass, ((classify_eq_subnormal _).mp hclass).1⟩

/-- Settles O52: the normalized sum is a multiple of 8, so its guard bit is clear. -/
theorem subnormalResultsAreExact : Obligations.SubnormalResultsAreExact := by
  unfold Obligations.SubnormalResultsAreExact
  intro a b n h h26
  obtain ⟨hsum, hv, -⟩ := h.sum_of_bit26_clear h26
  have hlow : n.sum.extractLsb' 0 3 = 0 := by
    apply BitVec.eq_of_toNat_eq
    rw [BitVec.extractLsb'_toNat, Nat.shiftRight_zero, hsum]
    exact Nat.mul_mod_right 8 _
  have hguard : guardBit n.sum = 0 := by
    apply BitVec.eq_of_toNat_eq
    rw [guardBit, extractBit_toNat, hsum]
    change _ = 0
    omega
  have hne : n.sum ≠ 0 := by
    intro h0
    rw [h0] at hsum
    exact Int.natAbs_ne_zero.mpr hv ((Nat.mul_eq_zero.mp hsum.symm).resolve_left (by norm_num))
  exact ⟨hlow, roundIncrement_of_guard_clear hguard, hne, h.subnormal_of_bit26_clear h26⟩

/-! ### Overflow (R103) -/

/-- The infinity of sign `s` is `{s, 8'hFF, 23'h000000}` (R44, R103). -/
theorem infinityOf_eq_append (s : BitVec 1) : infinityOf s = s ++ 0xFF#8 ++ 0#23 := rfl

theorem finishRounded_of_overflow {n : Normalized} {s : BitVec 1} (h : roundSum n = .overflow s) :
    finishRounded n = infinityOf s := by
  rw [finishRounded, h]

theorem finishRounded_of_inRange {n : Normalized} {r : Rounded} (h : roundSum n = .inRange r) :
    finishRounded n = encodeResult r := by
  rw [finishRounded, h]

/-- Settles O55: an overflow of either stage is passed on as the infinity of its sign. -/
theorem overflowGivesInfinity : Obligations.OverflowGivesInfinity := by
  unfold Obligations.OverflowGivesInfinity
  intro a b c h
  rw [← infinityOf_eq_append]
  refine ⟨fun hov => h.addFloat32_eq.trans (finishSum_of_overflow hov), fun n hn hov => ?_⟩
  have hreach : ReachesRounder a b n := ⟨c, h, hn⟩
  exact hreach.addFloat32_eq.trans (finishRounded_of_overflow hov)

/-! ### The encoder (R104, R105) -/

section
variable {a b : Word} {r : Rounded} (h : ReachesEncoder a b r)
include h

theorem ReachesEncoder.addFloat32_eq : addFloat32 a b = encodeResult r := by
  obtain ⟨n, hn, hr⟩ := h
  rw [hn.addFloat32_eq, finishRounded_of_inRange hr]

theorem ReachesEncoder.exponent_range :
    1 ≤ r.exponent.toNat ∧ r.exponent.toNat ≤ 254 ∧ (r.significand.toNat < 2 ^ 23 → r.exponent.toNat = 1) := by
  obtain ⟨n, hn, hr⟩ := h
  obtain ⟨h1, h254, hsub⟩ := hn.normalized
  rcases roundAndEncode n h1 h254 fun hlt => (hsub hlt).1 with ⟨-, hov⟩ | ⟨-, r', hr', -, hpos, hle, hone, -⟩
  · rw [hr] at hov; cases hov
  · rw [hr] at hr'; cases hr'
    exact ⟨hpos, hle, hone⟩

end

/-- The encoder packs the sign, the exponent or 0, and the bits below the hidden bit (R104). -/
theorem encodeResult_eq_packFields (r : Rounded) :
    encodeResult r = packFields r.sign (if r.significand.getLsbD 23 = true then r.exponent else 0)
      (r.significand.extractLsb' 0 23) := by
  rw [encodeResult]
  congr 1
  exact if_congr (extractBit_eq_one_iff_getLsbD _ 23) rfl rfl

/-- Settles O56: the range that the rounder leaves, and the encoder's packing, whose exponent field is in that range or 0. -/
theorem encoderRange : Obligations.EncoderRange := by
  unfold Obligations.EncoderRange
  intro a b r h
  obtain ⟨hpos, hle, hone⟩ := h.exponent_range
  have hy : addFloat32 a b = packFields r.sign (if r.significand.getLsbD 23 = true then r.exponent else 0)
      (r.significand.extractLsb' 0 23) := h.addFloat32_eq.trans (encodeResult_eq_packFields r)
  refine ⟨hpos, hle, fun h23 => ?exponentOne, hy, ?notReserved⟩
  case exponentOne => exact BitVec.eq_of_toNat_eq (hone ((topBit_clear_iff _).mp h23))
  case notReserved =>
    rw [hy, exponentField_packFields]
    split_ifs
    · intro h255
      rw [h255] at hle
      exact absurd hle (by decide)
    · decide

/-! ### Results of the general path (R106) -/

section
variable {a b : Word} (ha : isFiniteNonzero a = true) (hb : isFiniteNonzero b = true)
include ha hb

/-- The exact sum is 0 only where `b` is `a` with its sign flipped. -/
theorem scaledValue_add_eq_zero_iff : scaledValue a + scaledValue b = 0 ↔ b = hostNegate a := by
  constructor
  · intro hv
    have hpos := scaledMagnitude_pos ha
    obtain ⟨hsame, -⟩ := signed_add_cases (signField a) (signField b) _ _ hpos (scaledMagnitude_pos hb)
    rw [← scaledValue_eq, ← scaledValue_eq, hv] at hsame
    have hmagA := natAbs_scaledValue a
    have hmagB := natAbs_scaledValue b
    refine (eq_hostNegate_iff a b).mpr ⟨fun hs => ?_, by omega⟩
    obtain ⟨habs, -⟩ := hsame hs
    rw [Int.natAbs_zero] at habs
    omega
  · rintro rfl
    rw [scaledValue_hostNegate, add_neg_cancel]

/-- A result of the general path: +0 for an exact cancellation, and otherwise a Subnormal, a Normal or an Infinity. -/
theorem addFloat32_cases_of_finite_nonzero :
    (b = hostNegate a ∧ addFloat32 a b = 0x00000000) ∨
    (b ≠ hostNegate a ∧ (classify (addFloat32 a b) = .subnormal ∨ classify (addFloat32 a b) = .normal ∨
      classify (addFloat32 a b) = .infinity)) := by
  by_cases hv : b = hostNegate a
  · refine .inl ⟨hv, ?_⟩
    rw [addFloat32_of_finite_nonzero ha hb,
      generalResult_of_cancellation ha hb ((scaledValue_add_eq_zero_iff ha hb).mpr hv)]
  · have hne := mt (scaledValue_add_eq_zero_iff ha hb).mp hv
    rw [addFloat32_eq_exactRne (isFinite_of_isFiniteNonzero ha) (isFinite_of_isFiniteNonzero hb) hne]
    exact .inr ⟨hv, classify_exactRne hne⟩

end

/-- The Infinities are `infinityOf` of their sign (R41, R44). -/
theorem eq_infinityOf_of_infinity {x : Word} (h : classify x = .infinity) : x = infinityOf (signField x) := by
  obtain ⟨he, hf⟩ := (classify_eq_infinity x).mp h
  rw [infinityOf, ← he, ← hf, packFields_fields]

/-- What passes the magnitude engine keeps the engine's sign to the end. -/
theorem ReachesNormalizer.signField_addFloat32 {a b : Word} {c : Combined} (h : ReachesNormalizer a b c) :
    signField (addFloat32 a b) = c.sign := by
  obtain ⟨-, w, k, hout⟩ := h.engineOutput
  rw [h.addFloat32_eq, finishSum_eq_exactRne hout, signField_exactRne, hout.sign]

/-- What passes the magnitude engine is no exact cancellation. -/
theorem ReachesNormalizer.ne_hostNegate {a b : Word} {c : Combined} (h : ReachesNormalizer a b c) : b ≠ hostNegate a := by
  obtain ⟨hv, -⟩ := h.engineOutput
  obtain ⟨ha, hb, -⟩ := h
  exact mt (scaledValue_add_eq_zero_iff ha hb).mpr hv

/-- Settles O57: the result is +0 through exact cancellation, or else of a class that neither a NaN nor a zero has. -/
theorem generalPathNeverNanNorNegativeZero : Obligations.GeneralPathNeverNanNorNegativeZero := by
  unfold Obligations.GeneralPathNeverNanNorNegativeZero
  intro a b ha hb
  rcases addFloat32_cases_of_finite_nonzero ha hb with ⟨hcancel, hy⟩ | ⟨hcancel, hclass⟩
  · rw [hy]
    exact ⟨by decide, by decide, iff_of_true rfl hcancel, fun c h => absurd hcancel h.ne_hostNegate⟩
  · have hother : classify (addFloat32 a b) ≠ .nan ∧ classify (addFloat32 a b) ≠ .zero := by
      rcases hclass with hc | hc | hc <;> rw [hc] <;> decide
    obtain ⟨hnan, hzero⟩ := hother
    obtain ⟨hpositive, hnegative⟩ := not_or.mp (mt (classify_eq_zero_iff_pattern _).mpr hzero)
    refine ⟨hnan, hnegative, iff_of_false hpositive hcancel, fun c h => ?_⟩
    have hsign := h.signField_addFloat32
    exact ⟨hsign, hclass.imp_right (Or.imp_right fun hinf => hsign ▸ eq_infinityOf_of_infinity hinf)⟩

end Sys2Proof.Machine
end

section
/-! SUPPORT. 60_exceptions.md R107: executing an instruction, and so a step, always answers a next state. -/

namespace Sys2Proof.Machine

/-- No instruction faults and none is refused: ADD evaluates its operands, and an operand row takes its presentation. -/
theorem exec_answers_next (i : Instr) (s : State) : ∃ s', exec i s = .next s' := by
  cases i with
  | add a b => exact ⟨s.evaluate a b, exec_add a b s⟩
  | classZero sign => exact ⟨s.presentOperand (packFields sign 0 0), rfl⟩
  | classSubnormal sign fraction => exact ⟨s.presentOperand (packFields sign 0 fraction), rfl⟩
  | classNormal sign exponent fraction => exact ⟨s.presentOperand (packFields sign exponent fraction), rfl⟩
  | classInfinity sign => exact ⟨s.presentOperand (packFields sign 255 0), rfl⟩
  | classNan sign fraction => exact ⟨s.presentOperand (packFields sign 255 fraction), rfl⟩

/-- A step executes what it decodes, so it has no other outcome either. -/
theorem step_answers_next (s : State) : ∃ s', step s = .next s' :=
  exec_answers_next (decode s.presented) s

/-- Settles O4: every instruction, and so every step, answers a next state; ADD's is the evaluation of its operands, and
the output of any state is the sum of its inputs. -/
theorem everyStepGivesANextState : Obligations.EveryStepGivesANextState := by
  unfold Obligations.EveryStepGivesANextState
  refine ⟨exec_answers_next, fun a b s => ?addition, fun s => ?step⟩
  case addition => exact ⟨_, exec_add a b s, s.evaluate_a a b, s.evaluate_b a b, s.evaluate_y a b⟩
  case step =>
    obtain ⟨s', hs⟩ := step_answers_next s
    obtain ⟨hy, -⟩ := s'.output_settled
    exact ⟨s', hs, hy⟩

end Sys2Proof.Machine
end

section
/-! SUPPORT. 70_reset_and_hazards.md R126: a dependent operation sees the finished output of the one before it. -/

namespace Sys2Proof.Machine

/-- There is no hazard and nothing to forward: an evaluation that takes the output of another as its first operand
gives the composition of the two sums, each rounded. -/
theorem State.evaluate_of_output_y (s : State) (a b c : Word) :
    ((s.evaluate a b).evaluate (s.evaluate a b).y c).y = addFloat32 (addFloat32 a b) c :=
  calc ((s.evaluate a b).evaluate (s.evaluate a b).y c).y
      = addFloat32 (s.evaluate a b).y c := State.evaluate_y _ _ _
    _ = addFloat32 (addFloat32 a b) c := by rw [s.evaluate_y a b]

/-- Settles O9: both additions complete, each as the evaluation of its operands, and the second one's are the first
output and `c`. -/
theorem dependentAdditionsCompose : Obligations.DependentAdditionsCompose := by
  unfold Obligations.DependentAdditionsCompose
  intro a b c s
  exact ⟨_, _, exec_add a b s, exec_add _ c (s.evaluate a b), s.evaluate_of_output_y a b c⟩

end Sys2Proof.Machine
end

section
/-! SUPPORT. 30_encoding.md R41, R47 and R48: the class of a packed row, the round trips of the decoder and the encoder, and
raw words of every length. -/

namespace Sys2Proof.Machine

/-! ### The class of the pattern that each operand row packs (R41) -/

section
variable (s : BitVec 1) {e : BitVec 8} {f : BitVec 23}

theorem classify_packFields_zero : classify (packFields s 0 0) = .zero := by
  rw [classify_packFields]
  rfl

theorem classify_packFields_subnormal (hf : f ≠ 0) : classify (packFields s 0 f) = .subnormal := by
  rw [classify_eq_subnormal, exponentField_packFields, fractionField_packFields]
  exact ⟨rfl, hf⟩

theorem classify_packFields_normal (h0 : e ≠ 0) (h255 : e ≠ 255) : classify (packFields s e f) = .normal := by
  rw [classify_eq_normal, exponentField_packFields]
  exact ⟨h0, h255⟩

theorem classify_packFields_infinity : classify (packFields s 255 0) = .infinity :=
  classify_infinityOf s

theorem classify_packFields_nan (hf : f ≠ 0) : classify (packFields s 255 f) = .nan := by
  rw [classify_eq_nan, exponentField_packFields, fractionField_packFields]
  exact ⟨rfl, hf⟩

end

/-! ### The row of an operand of each class (R39, R41) -/

section
variable {x : Word}

theorem decode_operand_of_zero (h : classify x = .zero) : decode (.operand x) = .classZero (signField x) := by
  simp [decode, decodeOperand, h]

theorem decode_operand_of_subnormal (h : classify x = .subnormal) :
    decode (.operand x) = .classSubnormal (signField x) (fractionField x) := by
  simp [decode, decodeOperand, h]

theorem decode_operand_of_normal (h : classify x = .normal) :
    decode (.operand x) = .classNormal (signField x) (exponentField x) (fractionField x) := by
  simp [decode, decodeOperand, h]

theorem decode_operand_of_infinity (h : classify x = .infinity) :
    decode (.operand x) = .classInfinity (signField x) := by
  simp [decode, decodeOperand, h]

theorem decode_operand_of_nan (h : classify x = .nan) :
    decode (.operand x) = .classNan (signField x) (fractionField x) := by
  simp [decode, decodeOperand, h]

end

/-! ### Well-formed instructions, row by row -/

section
variable (s : BitVec 1) (e : BitVec 8) (f : BitVec 23)

@[simp] theorem wellFormed_classSubnormal : (Instr.classSubnormal s f).wellFormed = true ↔ f ≠ 0 := by
  simp [Instr.wellFormed]

@[simp] theorem wellFormed_classNormal : (Instr.classNormal s e f).wellFormed = true ↔ e ≠ 0 ∧ e ≠ 255 := by
  simp [Instr.wellFormed]

@[simp] theorem wellFormed_classNan : (Instr.classNan s f).wellFormed = true ↔ f ≠ 0 := by
  simp [Instr.wellFormed]

end

/-! ### Round trips -/

/-- Settles O10: the pattern of a well-formed row has the class of that row, and unpacking gives back what was packed. -/
theorem decodeOfEncodeIsIdentity : Obligations.DecodeOfEncodeIsIdentity := by
  unfold Obligations.DecodeOfEncodeIsIdentity
  intro i hi
  cases i with
  | add a b => exact decode_transactionWord a b
  | classZero sign =>
    rw [encode, operandPattern, decode_operand_of_zero (classify_packFields_zero sign), signField_packFields]
  | classSubnormal sign fraction =>
    have hf := (wellFormed_classSubnormal sign fraction).mp hi
    rw [encode, operandPattern, decode_operand_of_subnormal (classify_packFields_subnormal sign hf),
      signField_packFields, fractionField_packFields]
  | classNormal sign exponent fraction =>
    obtain ⟨h0, h255⟩ := (wellFormed_classNormal sign exponent fraction).mp hi
    rw [encode, operandPattern, decode_operand_of_normal (classify_packFields_normal sign h0 h255),
      signField_packFields, exponentField_packFields, fractionField_packFields]
  | classInfinity sign =>
    rw [encode, operandPattern, decode_operand_of_infinity (classify_packFields_infinity sign), signField_packFields]
  | classNan sign fraction =>
    have hf := (wellFormed_classNan sign fraction).mp hi
    rw [encode, operandPattern, decode_operand_of_nan (classify_packFields_nan sign hf),
      signField_packFields, fractionField_packFields]

/-- A pattern is presented again from its own fields (R39). -/
theorem operandPattern_of_fields {x : Word} {e : BitVec 8} {f : BitVec 23} (he : exponentField x = e)
    (hf : fractionField x = f) : operandPattern (signField x) e f = .operand x := by
  rw [operandPattern, ← he, ← hf, packFields_fields]

/-- No bit of an operand pattern is lost, and the row it decodes to is well-formed (R39, R41). -/
theorem wellFormed_and_encode_decode_operand (x : Word) :
    (decode (.operand x)).wellFormed = true ∧ encode (decode (.operand x)) = .operand x := by
  cases h : classify x with
  | zero =>
    obtain ⟨he, hf⟩ := (classify_eq_zero x).mp h
    rw [decode_operand_of_zero h]
    exact ⟨rfl, operandPattern_of_fields he hf⟩
  | subnormal =>
    obtain ⟨he, hf⟩ := (classify_eq_subnormal x).mp h
    rw [decode_operand_of_subnormal h, wellFormed_classSubnormal]
    exact ⟨hf, operandPattern_of_fields he rfl⟩
  | normal =>
    rw [decode_operand_of_normal h, wellFormed_classNormal]
    exact ⟨(classify_eq_normal x).mp h, operandPattern_of_fields rfl rfl⟩
  | infinity =>
    obtain ⟨he, hf⟩ := (classify_eq_infinity x).mp h
    rw [decode_operand_of_infinity h]
    exact ⟨rfl, operandPattern_of_fields he hf⟩
  | nan =>
    obtain ⟨he, hf⟩ := (classify_eq_nan x).mp h
    rw [decode_operand_of_nan h, wellFormed_classNan]
    exact ⟨hf, operandPattern_of_fields he rfl⟩

theorem transactionWord_toNat (a b : Word) : (transactionWord a b).toNat = a.toNat * 2 ^ 32 + b.toNat := by
  rw [transactionWord, BitVec.toNat_append, ← Nat.shiftLeft_add_eq_or_of_lt b.isLt, Nat.shiftLeft_eq]

/-- R48: a transaction word is its two operands side by side. -/
theorem transactionWord_operands (w : TxnWord) : transactionWord (firstOperand w) (secondOperand w) = w :=
  BitVec.eq_of_toNat_eq (by rw [transactionWord_toNat, ← transaction_toNat_eq_operands])

/-- Settles O11: both formats keep every bit, and an operand decodes to a row whose field bounds its class meets. -/
theorem encodeOfDecodeIsIdentity : Obligations.EncodeOfDecodeIsIdentity := by
  unfold Obligations.EncodeOfDecodeIsIdentity
  intro p
  cases p with
  | transaction w => exact ⟨rfl, congrArg Presentation.transaction (transactionWord_operands w)⟩
  | operand x => exact wellFormed_and_encode_decode_operand x

/-! ### Raw words -/

/-- Settles O13: the decoder is evaluated on each word. -/
theorem sampleWordsDecode : Obligations.SampleWordsDecode := by
  unfold Obligations.SampleWordsDecode
  exact ⟨by decide, by decide, by decide, by decide, by decide, by decide⟩

theorem presentWord_transaction (w : TxnWord) : presentWord 64 w.toNat = .ok (.transaction w) := by
  rw [presentWord, if_neg (Nat.not_le.mpr w.isLt), if_pos rfl, BitVec.ofNat_toNat, BitVec.setWidth_eq]

theorem presentWord_operand (x : Word) : presentWord 32 x.toNat = .ok (.operand x) := by
  rw [presentWord, if_neg (Nat.not_le.mpr x.isLt), if_neg (by decide), if_pos rfl, BitVec.ofNat_toNat,
    BitVec.setWidth_eq]

theorem presentWord_of_other_length {n w : Nat} (hw : w < 2 ^ n) (h32 : n ≠ 32) (h64 : n ≠ 64) :
    presentWord n w = .error (.noSuchFormat n) := by
  rw [presentWord, if_neg (Nat.not_le.mpr hw), if_neg h64, if_neg h32]

theorem presentWord_of_too_wide {n w : Nat} (hw : 2 ^ n ≤ w) : presentWord n w = .error (.wordTooWide n) :=
  if_pos hw

/-- Settles O14: the decoder of raw words decodes what `presentWord` accepts and passes on its rejections. -/
theorem rawWordsDecodeByFormat : Obligations.RawWordsDecodeByFormat := by
  unfold Obligations.RawWordsDecodeByFormat
  refine ⟨fun w => ?transaction, fun x => ?operand, fun n w hw h32 h64 => ?length, fun n w hw => ?width⟩
  case transaction => rw [decodeWord, presentWord_transaction]
  case operand => rw [decodeWord, presentWord_operand]
  case length => rw [decodeWord, presentWord_of_other_length hw h32 h64]
  case width => rw [decodeWord, presentWord_of_too_wide hw]

end Sys2Proof.Machine
end

section
/-! SUPPORT. 30_encoding.md R40: the value of a finite pattern, class by class. -/

namespace Sys2Proof.Machine

section
variable {x : Word}

/-- The hidden bit counts for 1, and the fraction for its 23 bits. -/
theorem value_of_normal (h : classify x = .normal) :
    value x = (-1) ^ (signField x).toNat * 2 ^ (((exponentField x).toNat : ℤ) - 127) *
      (1 + ((fractionField x).toNat : ℚ) / 2 ^ 23) := by
  have he := exponentField_ne_zero_of_normal h
  have hunit : (2 : ℚ) ^ (((exponentField x).toNat : ℤ) - 150) =
      2 ^ (((exponentField x).toNat : ℤ) - 127) / 2 ^ 23 := by
    rw [← zpow_natCast, ← zpow_sub₀ two_ne_zero, sub_sub]
    rfl
  rw [value, workingSignificand_of_exponent_ne_zero he, effectiveExponent_of_exponent_ne_zero he, hunit]
  push_cast
  ring

/-- With the hidden bit clear the significand is the fraction, at the effective exponent 1 (R43). -/
theorem value_of_subnormal_or_zero (h : classify x = .subnormal ∨ classify x = .zero) :
    value x = (-1) ^ (signField x).toNat * 2 ^ (-126 : ℤ) * (((fractionField x).toNat : ℚ) / 2 ^ 23) := by
  have he := exponentField_eq_zero_of_subnormal_or_zero h
  have hunit : (2 : ℚ) ^ (((1 : BitVec 8).toNat : ℤ) - 150) = 2 ^ (-126 : ℤ) / 2 ^ 23 := by
    rw [← zpow_natCast, ← zpow_sub₀ two_ne_zero]
    rfl
  rw [value, workingSignificand_of_exponent_zero he, effectiveExponent_of_exponent_zero he, hunit]
  ring

theorem value_of_zero (h : classify x = .zero) : value x = 0 := by
  rw [value_eq_scaledValue, scaledValue_of_zero h, Int.cast_zero, zero_div]

end

/-- Settles O16: the formula is how `value` is defined, and each class puts its significand and exponent into it. -/
theorem valueOfFinitePattern : Obligations.ValueOfFinitePattern := by
  unfold Obligations.ValueOfFinitePattern
  intro x _
  exact ⟨rfl, value_of_normal, fun h => value_of_subnormal_or_zero (.inl h), value_of_zero⟩

end Sys2Proof.Machine
end

section
/-! SUPPORT. 40_add.md R56: the datapath as one rounding, and that a rounded value is unique: two patterns that are equally
near to a number have another pattern between them unless they are neighbours, of which one is odd. -/

namespace Sys2Proof.Machine

/-- Settles O27: zeros give back the other operand, and the general path rounds once. -/
theorem datapathEqualsExactRounding : Obligations.DatapathEqualsExactRounding := by
  unfold Obligations.DatapathEqualsExactRounding
  intro a b ha hb hv
  exact addFloat32_eq_exactRne ha hb hv

/-- Settles O28: the rounded pattern is nearest among all patterns, and overflows from the threshold on. -/
theorem exactRoundingIsRne : Obligations.ExactRoundingIsRne := by
  unfold Obligations.ExactRoundingIsRne
  intro v hv
  exact exactRne_isRne hv

/-! ### Uniqueness -/

/-- What lies strictly between two numbers that are equally far from `t` is nearer to `t`. -/
theorem abs_sub_lt_of_between {p m q t : ℚ} (hpm : p < m) (hmq : m < q) (heq : |p - t| = |q - t|) :
    |m - t| < |p - t| := by
  have hmid : q - t = -(p - t) := by
    rcases abs_eq_abs.mp heq with h | h <;> linarith
  rw [abs_of_neg (by linarith : p - t < 0), abs_lt]
  constructor <;> linarith

theorem abs_value_lt_abs_value_iff (x z : Word) : |value x| < |value z| ↔ x.toNat % 2 ^ 31 < z.toNat % 2 ^ 31 := by
  rw [abs_value_eq, abs_value_eq, div_lt_div_iff_of_pos_right (by positivity), Nat.cast_lt, scaledMagnitude_eq,
    scaledMagnitude_eq, magnitudeOfPattern_strictMono.lt_iff_lt]

/-- Between two finite even patterns of one sign lies a finite pattern of that sign: the successor of the smaller. -/
theorem exists_between_even {y z : Word} (hz : isFinite z = true) (hsign : signField y = signField z)
    (hy0 : y.getLsbD 0 = false) (hz0 : z.getLsbD 0 = false) (hlt : |value y| < |value z|) :
    ∃ x, isFinite x = true ∧ signField x = signField z ∧ |value y| < |value x| ∧ |value x| < |value z| := by
  have hzmax : z.toNat % 2 ^ 31 < 0x7F800000 := by
    have hexp := mt (not_finite_condition_iff z).mp (not_not.mpr hz)
    have hlt := (exponentField z).isLt
    rw [exponentField_toNat] at hexp hlt
    omega
  rw [abs_value_lt_abs_value_iff] at hlt
  rw [BitVec.getLsbD, Nat.testBit_zero, decide_eq_false_iff_not] at hy0 hz0
  have hysign := signField_toNat y
  have hx : (BitVec.ofNat 32 (y.toNat + 1)).toNat = (signField y).toNat * 2 ^ 31 + (y.toNat % 2 ^ 31 + 1) := by
    rw [BitVec.toNat_ofNat]
    omega
  obtain ⟨hfinite, hxsign, hmag⟩ := finite_of_toNat (by omega) hx
  refine ⟨_, hfinite, hxsign.trans hsign, ?_, ?_⟩ <;> rw [abs_value_lt_abs_value_iff, hmag] <;> omega

/-- Of two patterns that are both nearest, ties to even, none has the smaller magnitude. -/
theorem IsNearestEven.abs_value_not_lt {v : ℚ} {y z : Word} (hy : IsNearestEven v y) (hz : IsNearestEven v z) :
    ¬|value y| < |value z| := by
  obtain ⟨hyfinite, hysign, hynear⟩ := hy
  obtain ⟨hzfinite, hzsign, hznear⟩ := hz
  intro hlt
  have hne : y ≠ z := fun h => hlt.ne (by rw [h])
  have hdist : magnitudeDistance y v = magnitudeDistance z v :=
    le_antisymm (hynear z hzfinite hzsign).1 (hznear y hyfinite hysign).1
  have hyeven := (hynear z hzfinite hzsign).2 hne.symm hdist.symm
  have hzeven := (hznear y hyfinite hysign).2 hne hdist
  obtain ⟨x, hxfinite, hxsign, hyx, hxz⟩ := exists_between_even hzfinite (hysign.trans hzsign.symm) hyeven hzeven hlt
  exact (abs_sub_lt_of_between hyx hxz hdist).not_ge (hynear x hxfinite (hxsign.trans hzsign)).1

theorem IsNearestEven.unique {v : ℚ} {y z : Word} (hy : IsNearestEven v y) (hz : IsNearestEven v z) : y = z := by
  have hyz := hy.abs_value_not_lt hz
  have hzy := hz.abs_value_not_lt hy
  rw [abs_value_lt_abs_value_iff] at hyz hzy
  exact word_eq_of_sign_of_magnitude (hy.2.1.trans hz.2.1.symm) (by omega)

/-- Settles O29: an overflow has one infinity, and below the threshold the nearest even pattern is unique. -/
theorem roundedResultIsUnique : Obligations.RoundedResultIsUnique := by
  unfold Obligations.RoundedResultIsUnique
  intro v y z _ hy hz
  unfold IsRne at hy hz
  split_ifs at hy hz
  · rw [hy, hz]
  · exact hy.unique hz

end Sys2Proof.Machine
end

section
/-! SUPPORT. 93_implementation_defined.md I1 and I2: where the two parameters of a build show. -/

namespace Sys2Proof.Machine

open Sys2Proof.Config

theorem dispatchLine_eq_nanA_iff (ca cb : OperandClass) : dispatchLine ca cb = .nanA ↔ ca = .nan := by
  unfold dispatchLine
  split_ifs <;> simp_all

theorem dispatchLine_eq_bothInfinite_iff (ca cb : OperandClass) :
    dispatchLine ca cb = .bothInfinite ↔ ca = .infinity ∧ cb = .infinity := by
  unfold dispatchLine
  split_ifs <;> simp_all

section
variable (p : Params) {a b : Word}

/-- Line 1 with both operands NaN is where `NAN_SELECT` chooses (R70, I1). -/
theorem addFloat32With_of_nans (ha : classify a = .nan) (hb : classify b = .nan) :
    addFloat32With p a b = if p.nanSelect = .second then b else a := by
  simp [addFloat32With, ha, hb, dispatchLine_nan_left, nanResult]

/-- Line 3 with opposite signs is where `CANONICAL_NAN` is returned (R73, I2). -/
theorem addFloat32With_of_opposite_infinities (ha : classify a = .infinity) (hb : classify b = .infinity)
    (hs : signField a ≠ signField b) : addFloat32With p a b = p.canonicalNan := by
  rw [addFloat32With, (dispatchLine_eq_bothInfinite_iff _ _).mpr ⟨ha, hb⟩]
  exact if_neg hs

/-- In every other case no line of the dispatch reads a parameter. -/
theorem addFloat32With_eq_addFloat32 (hnans : ¬(classify a = .nan ∧ classify b = .nan))
    (hinf : ¬(classify a = .infinity ∧ classify b = .infinity ∧ signField a ≠ signField b)) :
    addFloat32With p a b = addFloat32 a b := by
  unfold addFloat32 addFloat32With
  cases hline : dispatchLine (classify a) (classify b) with
  | nanA =>
    have hnb : classify b ≠ .nan := fun hb => hnans ⟨(dispatchLine_eq_nanA_iff _ _).mp hline, hb⟩
    simp [nanResult, hnb]
  | bothInfinite =>
    obtain ⟨ha, hb⟩ := (dispatchLine_eq_bothInfinite_iff _ _).mp hline
    have hs : signField a = signField b := by_contra fun hs => hinf ⟨ha, hb, hs⟩
    simp [infinitiesResult, hs]
  | nanB | infiniteA | infiniteB | bothZero | zeroA | zeroB | generalPath => rfl

end

/-- Settles O38: the two cases in which a parameter is read, and the rest, where the result is that of this spec. -/
theorem parametersTouchOnlyTheirCases : Obligations.ParametersTouchOnlyTheirCases := by
  unfold Obligations.ParametersTouchOnlyTheirCases
  intro p a b hp
  by_cases hnans : classify a = .nan ∧ classify b = .nan
  · obtain ⟨ha, hb⟩ := hnans
    rw [addFloat32With_of_nans p ha hb, addFloat32_of_nan_left ha]
    refine ⟨fun hne => .inl ?_, ?_, fun h => absurd ⟨ha, hb⟩ h⟩
    · have hsecond : p.nanSelect = .second := by_contra fun h => hne (if_neg h)
      exact ⟨ha, hb, hsecond, if_pos hsecond⟩
    · split_ifs
      · rw [ha, hb]
      · rfl
  by_cases hinf : classify a = .infinity ∧ classify b = .infinity ∧ signField a ≠ signField b
  · obtain ⟨ha, hb, hs⟩ := hinf
    have hab := addFloat32With_of_opposite_infinities p ha hb hs
    have hspec : classify (addFloat32 a b) = .nan := by
      rw [addFloat32_of_infinities ha hb, if_neg hs]
      decide
    rw [hab, addFloat32With_of_opposite_infinities p hb ha hs.symm]
    exact ⟨fun _ => .inr ⟨ha, hb, hs, rfl⟩, iff_of_true hp hspec, fun _ => rfl⟩
  · have hab := addFloat32With_eq_addFloat32 p hnans hinf
    have hba : addFloat32With p b a = addFloat32 b a :=
      addFloat32With_eq_addFloat32 p (mt And.symm hnans) fun ⟨hb, ha, hs⟩ => hinf ⟨ha, hb, hs.symm⟩
    rw [hab, hba]
    exact ⟨fun hne => absurd rfl hne, Iff.rfl, addFloat32_comm⟩

end Sys2Proof.Machine
end

section
/-! SUPPORT. 00_scope.md section 5: the leading zeros of a 27-bit value by its bits. -/

namespace Sys2Proof.Machine

/-- Settles O49: the leading zeros enclose the value between two powers of 2, which fixes its top bit. -/
theorem leadingZeroCount : Obligations.LeadingZeroCount := by
  unfold Obligations.LeadingZeroCount
  refine ⟨by decide, fun v hv => ?_⟩
  obtain ⟨-, hlt, hne⟩ := lzc27_spec v
  obtain ⟨hle, hge⟩ := hne hv
  refine ⟨hle, ?top, fun i hi => ?above⟩
  case top =>
    refine Nat.testBit_of_two_pow_le_and_two_pow_add_one_gt hge ?_
    rwa [show 26 - lzc27 v + 1 = 27 - lzc27 v by omega]
  case above =>
    exact Nat.testBit_lt_two_pow (hlt.trans_le (Nat.pow_le_pow_right two_pos (by omega)))

end Sys2Proof.Machine
end

section
/-! SUPPORT. 10_state.md, 20_memory.md and the opcode table: the whole effect of ADD and of an operand row, what a step runs,
and that the output stays correct. -/

namespace Sys2Proof.Machine

/-! ### The output stays correct (R23) -/

/-- Settles O1: the sum of two +0 is +0, and the output of every state is correct. -/
theorem resetIsSettledAndCorrect : Obligations.ResetIsSettledAndCorrect := by
  unfold Obligations.ResetIsSettledAndCorrect
  obtain ⟨-, -, hcorrect⟩ := State.reset.output_settled
  exact ⟨addFloat32_of_zeros_eq (by decide) (by decide), hcorrect⟩

/-- An evaluation is correct whatever the state was: the datapath rounds correctly. -/
theorem State.evaluate_correct (s : State) (a b : Word) : (s.evaluate a b).Correct :=
  addFloat32_isCorrectSum a b

/-- An operand alone leaves the ports as they are, so a correct output stays correct. -/
theorem State.presentOperand_correct {s : State} (h : s.Correct) (x : Word) : (s.presentOperand x).Correct := h

/-- Settles O2: a step evaluates a transaction, which is correct, or takes an operand alone, which keeps the ports. -/
theorem stepKeepsOutputCorrect : Obligations.StepKeepsOutputCorrect := by
  unfold Obligations.StepKeepsOutputCorrect
  intro s hs s' hstep
  rcases step_cases hstep with ⟨a, b, -, rfl⟩ | ⟨x, -, rfl⟩
  · exact s.evaluate_correct a b
  · exact State.presentOperand_correct hs x

/-! ### The whole effect of an instruction -/

/-- Settles O22: ADD is one evaluation. -/
theorem addChangesNothingElse : Obligations.AddChangesNothingElse := by
  unfold Obligations.AddChangesNothingElse
  intro a b s
  exact ⟨exec_add a b s, s.evaluate_y a b⟩

/-- Settles O7: the second evaluation drives the same ports and takes the same presentation. -/
theorem evaluationIsIdempotent : Obligations.EvaluationIsIdempotent := by
  unfold Obligations.EvaluationIsIdempotent
  intro a b s s' h
  rw [exec_add] at h
  injection h with h
  subst h
  exact exec_add a b _

/-- An instruction whose word is an operand alone takes its presentation and does nothing else. -/
theorem exec_of_encode_operand {i : Instr} {x : Word} (h : encode i = .operand x) (s : State) :
    exec i s = .next s.advance := by
  cases i with
  | add a b => exact absurd h (by simp [encode])
  | classZero | classSubnormal | classNormal | classInfinity | classNan => rfl

/-- Settles O23: the packed pattern has the class of its row, and the row is an operand alone. -/
theorem operandRowsClassify : Obligations.OperandRowsClassify := by
  unfold Obligations.OperandRowsClassify
  intro s
  refine ⟨s.advance_y, fun sign => ?zero, fun sign fraction hf => ?subnormal,
    fun sign exponent fraction h0 h255 => ?normal, fun sign => ?infinity, fun sign fraction hf => ?nan⟩
  case zero => exact ⟨classify_packFields_zero sign, exec_of_encode_operand rfl s⟩
  case subnormal => exact ⟨classify_packFields_subnormal sign hf, exec_of_encode_operand rfl s⟩
  case normal => exact ⟨classify_packFields_normal sign h0 h255, exec_of_encode_operand rfl s⟩
  case infinity => exact ⟨classify_packFields_infinity sign, exec_of_encode_operand rfl s⟩
  case nan => exact ⟨classify_packFields_nan sign hf, exec_of_encode_operand rfl s⟩

/-- Settles O24: the row that an operand decodes to is that of its class, and its own word is that operand again. -/
theorem operandAloneLeavesPorts : Obligations.OperandAloneLeavesPorts := by
  unfold Obligations.OperandAloneLeavesPorts
  intro s x
  obtain ⟨-, hencode⟩ := wellFormed_and_encode_decode_operand x
  exact ⟨rowClass_decode_operand x, s.advance, exec_of_encode_operand hencode s, rfl,
    s.advance_a, s.advance_b, s.advance_y⟩

/-! ### What a step runs -/

section
variable {s : State}

/-- A step runs the head of `pending`. -/
theorem step_of_pending_cons {p : Presentation} {rest : List Presentation} (h : s.pending = p :: rest) :
    step s = exec (decode p) s := by
  rw [step, State.presented_of_pending_cons s h]

/-- With nothing pending a step evaluates the pair on the ports (R23). -/
theorem step_of_pending_nil (h : s.pending = []) : step s = .next (s.evaluate s.a s.b) :=
  step_of_presented_transaction (State.presented_of_pending_nil s h)

/-- A transaction at the head of `pending` is evaluated. -/
theorem step_of_pending_transaction {w : TxnWord} {rest : List Presentation} (h : s.pending = .transaction w :: rest) :
    step s = .next (s.evaluate (firstOperand w) (secondOperand w)) := by
  rw [step_of_pending_cons h, decode, exec_add]

theorem State.withFetchWord_transaction (s : State) (w : TxnWord) :
    s.withFetchWord 64 w.toNat = s.present (.transaction w) := by
  rw [State.withFetchWord, presentWord_transaction]

theorem State.withFetchWord_operand (s : State) (x : Word) : s.withFetchWord 32 x.toNat = s.present (.operand x) := by
  rw [State.withFetchWord, presentWord_operand]

end

/-- Settles O5: the head of `pending` is what a step decodes, and a fetched word is placed there. -/
theorem stepRunsDecodedInstruction : Obligations.StepRunsDecodedInstruction := by
  unfold Obligations.StepRunsDecodedInstruction
  intro s
  refine ⟨fun i hi => ?decoded, fun p rest => step_of_pending_cons, fun h => ?idle,
    fun w => ?transaction, fun x => ?operand⟩
  case decoded => rw [step, hi]
  case idle => rw [step_of_pending_nil h, exec_add]
  case transaction =>
    rw [s.withFetchWord_transaction]
    exact step_of_pending_cons (s.present_pending _)
  case operand =>
    rw [s.withFetchWord_operand]
    exact step_of_pending_cons (s.present_pending _)

/-- Driving the ports with what is on them, with nothing to take, is no change. -/
theorem State.evaluate_of_pending_nil {s : State} (h : s.pending = []) : s.evaluate s.a s.b = s := by
  obtain ⟨pending, a, b⟩ := s
  subst h
  rfl

/-- Settles O58: the pair on the ports is evaluated again. -/
theorem idleStepChangesNothing : Obligations.IdleStepChangesNothing := by
  unfold Obligations.IdleStepChangesNothing
  intro s h
  rw [step_of_pending_nil h, State.evaluate_of_pending_nil h]

/-- Settles O8: in either order each word is evaluated once, and an evaluation keeps nothing of the one before it. -/
theorem orderOfTransactionsIsUnobservable : Obligations.OrderOfTransactionsIsUnobservable := by
  unfold Obligations.OrderOfTransactionsIsUnobservable
  intro v w s
  exact ⟨_, _, _, _, step_of_pending_transaction rfl, step_of_pending_transaction rfl,
    step_of_pending_transaction rfl, step_of_pending_transaction rfl, rfl, rfl⟩

end Sys2Proof.Machine
end
